-- ==== Sys2Proof/Word.lean ====
section
/-! DEFINITION. The words of the block's registers: bytes, 16-bit and 32-bit values, and byte sequences (R7, R22, R23). -/

namespace Sys2Proof

/-- 8 bits: a command word, a status code, a frame type, a flag byte, one byte of a buffer (R7). -/
abbrev Byte := BitVec 8

/-- 16 bits: a setting kind code (R6). -/
abbrev Half := BitVec 16

/-- 32 bits: a header length, a stream id, an integer or a setting value (R6). -/
abbrev Word := BitVec 32

/-- A byte sequence, indexed from 0; byte 0 is the first byte on the wire (R7). -/
abbrev Bytes := List Byte

end Sys2Proof
end

