-- ==== Sys2Proof/Syntax.lean ====
section
/-! DEFINITION. The instructions of the block: its fourteen commands (R86). A command word has no operand field (R85), so no
constructor has an argument; the operands are the request registers. -/

namespace Sys2Proof

/-- One constructor per row of the command map (R86). -/
inductive Instr where
  /-- `READ_U24` (R100). -/
  | readU24
  /-- `WRITE_U24` (R101). -/
  | writeU24
  /-- `READ_U31` (R102). -/
  | readU31
  /-- `WRITE_U31` (R103). -/
  | writeU31
  /-- `HDR_ENC` (R110). -/
  | hdrEnc
  /-- `HDR_DEC` (R112). -/
  | hdrDec
  /-- `SET_ENC` (R120). -/
  | setEnc
  /-- `SET_DEC` (R122). -/
  | setDec
  /-- `SETTINGS_ENC` (R130). -/
  | settingsEnc
  /-- `SETTINGS_DEC` (R132). -/
  | settingsDec
  /-- `HEADERS_ENC` (R140). -/
  | headersEnc
  /-- `HEADERS_DEC` (R143). -/
  | headersDec
  /-- `DATA_ENC` (R150). -/
  | dataEnc
  /-- `DATA_DEC` (R152). -/
  | dataDec
  deriving DecidableEq, Repr

end Sys2Proof
end

