-- ==== Sys2Proof/Decode.lean ====
section
/-! DEFINITION. The command word `CMD8`: `GROUP` in bits 7:4, `FUNC` in bits 3:0 (R85), read by the command map (R86). The other
242 words are rejected by name (R87). The encoder stands after the decoder, from the same table. -/

namespace Sys2Proof

/-- Why a byte sequence is not a command. -/
inductive DecodeError where
  /-- The word is none of the command map's (R87). -/
  | illegalCommand (w : Byte)
  /-- There is no word. -/
  | noWord
  deriving DecidableEq, Repr

/-- `GROUP`, bits 7:4 of a command word (R85). -/
def cmdGroup (w : Byte) : Nat := w.toNat / 16

/-- `FUNC`, bits 3:0 of a command word (R85). -/
def cmdFunc (w : Byte) : Nat := w.toNat % 16

/-- The command map (R86): the command a word spells, none for the 242 illegal words (R87). -/
def decodeWord (w : Byte) : Option Instr :=
  match cmdGroup w, cmdFunc w with
  | 0, 1 => some .readU24
  | 0, 2 => some .writeU24
  | 0, 3 => some .readU31
  | 0, 4 => some .writeU31
  | 1, 0 => some .hdrEnc
  | 1, 1 => some .hdrDec
  | 2, 0 => some .setEnc
  | 2, 1 => some .setDec
  | 3, 0 => some .settingsEnc
  | 3, 1 => some .settingsDec
  | 4, 0 => some .headersEnc
  | 4, 1 => some .headersDec
  | 5, 0 => some .dataEnc
  | 5, 1 => some .dataDec
  | _, _ => none

/-- Decode the first command word of a byte sequence; the rest is handed back. -/
def decode : Bytes → Except DecodeError (Instr × Bytes)
  | [] => .error .noWord
  | w :: rest =>
    match decodeWord w with
    | some i => .ok (i, rest)
    | none => .error (.illegalCommand w)

/-- The `CMD` column of the command map (R86). -/
def encodeWord : Instr → Byte
  | .readU24 => 0x01#8
  | .writeU24 => 0x02#8
  | .readU31 => 0x03#8
  | .writeU31 => 0x04#8
  | .hdrEnc => 0x10#8
  | .hdrDec => 0x11#8
  | .setEnc => 0x20#8
  | .setDec => 0x21#8
  | .settingsEnc => 0x30#8
  | .settingsDec => 0x31#8
  | .headersEnc => 0x40#8
  | .headersDec => 0x41#8
  | .dataEnc => 0x50#8
  | .dataDec => 0x51#8

/-- A command is one word long. -/
def encode (i : Instr) : Bytes := [encodeWord i]

/-- The bytes of an instruction of `nbits` bits, numbered as the opcode table numbers them (bit 0 least significant, the first
byte first); every row has 8 bits (R85), so this is one byte. DESIGN CHOICE, log entry 16, safe. -/
def tableBytes (nbits w : Nat) : Bytes :=
  (List.range (max 1 (nbits / 8))).map fun k => BitVec.ofNat 8 (w % 2 ^ nbits / 256 ^ k)

/-- The command the decoder reads from an instruction of `nbits` bits whose bits are `w`; none where it refuses, and where
`nbits` is longer than a command word. -/
def decodeTableWord (nbits w : Nat) : Option Instr :=
  match decode (tableBytes nbits w) with
  | .ok (i, []) => some i
  | .ok (_, _ :: _) => none
  | .error _ => none

end Sys2Proof
end

