-- ==== Sys2Proof/Config.lean ====
section
/-! DEFINITION. The parameters of the block that the spec leaves OPEN (R6): capacities and number of units.
Their values are opaque constants, so no proof can see them; only their ranges are known. -/

namespace Sys2Proof

/-- The two capacities of a unit (R6). A unit's registers stand beside them in `State`, and no step changes them. -/
structure Config where
  /-- `BUF_CAPACITY`: most bytes a buffer holds. -/
  bufCapacity : Nat
  /-- `SET_CAPACITY`: most entries a setting list holds. -/
  setCapacity : Nat
  deriving DecidableEq, Repr

/-- What `BUF_CAPACITY` has above its least value 9; open (R6). DESIGN CHOICE, log entry 2, safe. -/
opaque Config.bufOpen : Fin (2 ^ 32 - 10 + 1)

/-- What `SET_CAPACITY` has above its least value 1; open (R6). DESIGN CHOICE, log entry 2, safe. -/
opaque Config.setOpen : Nat

/-- What `N_UNITS` has above its least value 1; open (R6). DESIGN CHOICE, log entry 8, safe. -/
opaque Config.unitsOpen : Nat

/-- The capacities of the unit at hand: `9 ≤ BUF_CAPACITY ≤ 2^32 - 1` and `SET_CAPACITY ≥ 1`, otherwise open (R6). -/
def Config.given : Config where
  bufCapacity := 9 + Config.bufOpen.val
  setCapacity := 1 + Config.setOpen

/-- `N_UNITS`, at least 1, otherwise open (R6). -/
def Config.nUnits : Nat := 1 + Config.unitsOpen

end Sys2Proof
end

