-- ==== Sys2Proof/Machine/HostMove.lean ====
section
/-! DEFINITION. What crosses the block's interface: header and setting values, the names of the response registers, the values a
host reads, and the moves a host can make (R20, R91). Plain data only. -/

namespace Sys2Proof.Machine

/-- A header value: the four fields `{LEN, TYPE, FLAGS, SID}` (R22). -/
structure Header where
  len : Word
  type : Byte
  flags : Byte
  sid : Word
  deriving DecidableEq, Repr

/-- One entry of a setting list: `{KIND: 16 bits, VAL: 32 bits}` (R22, R28). -/
structure Setting where
  kind : Half
  val : Word
  deriving DecidableEq, Repr

/-- The response registers by name (R23). `hdrOut` names the four header fields together. -/
inductive RespReg where
  | status
  | hdrOut
  | hdrOutLen
  | hdrOutType
  | hdrOutFlags
  | hdrOutSid
  | bufOut
  | valOut
  | kindOut
  | ackOut
  | esOut
  | ehOut
  | setOut
  deriving DecidableEq, Repr

/-- The request registers a command can read, by name (R22); `CMD` is read only when it is written. -/
inductive ReqReg where
  | hdrIn
  | bufIn
  | valIn
  | kindIn
  | ackIn
  | esIn
  | ehIn
  | setIn
  deriving DecidableEq, Repr

/-- A value a host read from a response register, by the register's width (R23). -/
inductive RegVal where
  | byte (v : Byte)
  | half (v : Half)
  | word (v : Word)
  | bit (v : Bool)
  | header (v : Header)
  | bytes (v : Bytes)
  | settings (v : List Setting)
  deriving DecidableEq, Repr

/-- A header as a host writes it: naturals, each taken modulo 2^width when it is placed (R26, R91). -/
structure HeaderLit where
  len : Nat
  type : Nat
  flags : Nat
  sid : Nat
  deriving DecidableEq, Repr

/-- Where a host takes the bytes of `WR BUF_IN = …` from (R91, R92). -/
inductive BufSource where
  /-- A byte list. -/
  | lit (bs : Bytes)
  /-- `BUF_OUT`, the previous response. -/
  | bufOut
  /-- `BUF_OUT[a:b]`, bytes a to b - 1 of the previous response. -/
  | bufOutSlice (a b : Nat)
  /-- `W[a:b]` of a byte sequence `W` the host holds. -/
  | slice (w : Bytes) (a b : Nat)
  /-- `W[9:9+x[HDR_OUT.LEN]]`, the payload the previous header delimits (R92 `RECV`). -/
  | payload (w : Bytes)
  deriving DecidableEq, Repr

/-- A host write `WR <reg> = <value>` of a request register other than `CMD` (R22, R91). Numbers are naturals, taken modulo
2^width when they are placed (R26). -/
inductive ReqWrite where
  | hdrIn (h : HeaderLit)
  | hdrInLen (v : Nat)
  | hdrInType (v : Nat)
  | hdrInFlags (v : Nat)
  | hdrInSid (v : Nat)
  | bufIn (src : BufSource)
  | valIn (v : Nat)
  | kindIn (v : Nat)
  | ackIn (v : Nat)
  | esIn (v : Nat)
  | ehIn (v : Nat)
  /-- `(KIND, VAL)` pairs. -/
  | setIn (es : List (Nat × Nat))
  deriving DecidableEq, Repr

/-- One move of the host (R20, R91). -/
inductive HostMove where
  /-- The host writes a command word to `CMD`, which issues the command (R85). -/
  | cmd (w : Nat)
  /-- `WR <reg> = <value>`. -/
  | wr (x : ReqWrite)
  /-- `FWD HDR_OUT -> HDR_IN`. -/
  | fwd
  /-- `RD <reg>`. -/
  | rd (r : RespReg)
  /-- Reset, which happens between commands (R191). -/
  | reset
  deriving DecidableEq, Repr

/-- The frame types that have a frame codec, for `SEND` and `RECV` (R92). -/
inductive FrameKind where
  | settings
  | headers
  | data
  deriving DecidableEq, Repr

end Sys2Proof.Machine
end

