-- ==== Sys2Proof/Machine/State.lean ====
section
/-! DEFINITION. The state of one unit and its host, as plain data: the request and response registers (R22, R23), the marks (R33),
the unit's parameters (R6) and, for the host agent, its pending moves and what it has read (R20, R91).
`none` in a register is the spec's `⊥`, "holds no value" (R8, R31): the state reset and every command's start put registers in
(R30, R190), not a missing reset value (log entry 1). -/

namespace Sys2Proof.Machine

/-- The four registers of a header, `HDR_IN` or `HDR_OUT`; each may hold `⊥` (R22, R23). -/
structure HeaderReg where
  len : Option Word := none
  type : Option Byte := none
  flags : Option Byte := none
  sid : Option Word := none
  deriving DecidableEq, Repr

/-- The request registers (R22): the host writes them, the unit only reads them. -/
structure Request where
  /-- `CMD`, 8 bits. -/
  cmd : Option Byte := none
  /-- `HDR_IN.LEN`, `HDR_IN.TYPE`, `HDR_IN.FLAGS`, `HDR_IN.SID`. -/
  hdrIn : HeaderReg := {}
  /-- `BUF_IN`, a byte sequence; byte address = index (R50). -/
  bufIn : Option Bytes := none
  /-- `VAL_IN`, 32 bits. -/
  valIn : Option Word := none
  /-- `KIND_IN`, 16 bits. -/
  kindIn : Option Half := none
  /-- `ACK_IN`, 1 bit. -/
  ackIn : Option Bool := none
  /-- `ES_IN`, 1 bit. -/
  esIn : Option Bool := none
  /-- `EH_IN`, 1 bit. -/
  ehIn : Option Bool := none
  /-- `SET_IN`, an ordered list of entries. -/
  setIn : Option (List Setting) := none
  deriving DecidableEq, Repr

/-- The response registers (R23): the unit writes them, the host only reads them. -/
structure Response where
  /-- `STATUS`, 8 bits. -/
  status : Option Byte := none
  /-- `HDR_OUT.LEN`, `HDR_OUT.TYPE`, `HDR_OUT.FLAGS`, `HDR_OUT.SID`. -/
  hdrOut : HeaderReg := {}
  /-- `BUF_OUT`, a byte sequence; byte address = index (R51). -/
  bufOut : Option Bytes := none
  /-- `VAL_OUT`, 32 bits. -/
  valOut : Option Word := none
  /-- `KIND_OUT`, 16 bits. -/
  kindOut : Option Half := none
  /-- `ACK_OUT`, 1 bit. -/
  ackOut : Option Bool := none
  /-- `ES_OUT`, 1 bit. -/
  esOut : Option Bool := none
  /-- `EH_OUT`, 1 bit. -/
  ehOut : Option Bool := none
  /-- `SET_OUT`, an ordered list of entries. -/
  setOut : Option (List Setting) := none
  deriving DecidableEq, Repr

/-- One unit with its host. -/
structure State where
  /-- The unit's parameters `BUF_CAPACITY` and `SET_CAPACITY` (R6); no step changes them. -/
  cfg : Config
  /-- The request registers (R22). -/
  req : Request
  /-- The response registers (R23). -/
  resp : Response
  /-- The mark `FAULTED` (R33): set by every model fault, cleared only by reset. -/
  faulted : Bool
  /-- The mark `REFUSED` (R33): set by every refusal, cleared only by reset. -/
  refused : Bool
  /-- The host's pending moves, the next one first: the model's own field for the host agent (log entry 3). -/
  script : List HostMove
  /-- What the host has read with `RD`, newest first: the model's own field for the host agent (log entry 10). -/
  seen : List RegVal
  deriving DecidableEq, Repr

/-- The machine right after reset (R37, R190): every request and response register `⊥`, both marks 0; the host has made no move
and read nothing. -/
def State.reset : State where
  cfg := Config.given
  req := {}
  resp := {}
  faulted := false
  refused := false
  script := []
  seen := []

/-- The caller contracts of the integer primitives that R173 names, with the primitive that makes the test. -/
inductive Contract where
  /-- `READ_U24`: `len(buf) < 3` (R100). -/
  | readU24Short
  /-- `WRITE_U24`: `len(buf) < 3` (R101). -/
  | writeU24Short
  /-- `WRITE_U24`: `v` does not fit 24 bits (R101). -/
  | writeU24Wide
  /-- `READ_U31`: fewer than 4 bytes (R102). -/
  | readU31Short
  /-- `WRITE_U31`: fewer than 4 bytes (R103). -/
  | writeU31Short
  deriving DecidableEq, Repr

/-- The model faults (R170 to R174). A fault ends the run (R179); `after` is the state it leaves, with `FAULTED` set (R33, R170). -/
inductive Fault where
  /-- `UNWRITTEN_REQUEST` (R171): raised by every command that reads a request register holding `⊥` on its path, and by a host read
  of a response register holding `⊥`. Safe: the model stops where the spec gives no value. -/
  | unwrittenRequest (after : State)
  /-- `ILLEGAL_COMMAND` (R172): raised when the host writes a command word outside the command map. Safe: the spec gives it no
  operation. -/
  | illegalCommand (after : State)
  /-- `PRECONDITION` (R173): raised by the integer primitives `READ_U24`, `WRITE_U24`, `READ_U31`, `WRITE_U31` when the named caller
  contract is broken. Safe: the spec gives no behaviour. -/
  | precondition (why : Contract) (after : State)
  /-- `ILLEGAL_OPERAND` (R174): raised by `SET_ENC` and `SETTINGS_ENC` for a setting kind 7 to 0xFFFF. Safe: the spec gives no
  behaviour. -/
  | illegalOperand (after : State)
  deriving DecidableEq, Repr

/-- The refusals. -/
inductive Refusal where
  /-- An instruction whose arm in `exec` has no meaning yet; raised by no arm of this model. Safe. -/
  | notModelled (mnemonic : String)
  /-- `CAPACITY` (R176): raised by `SET_ENC`, `SETTINGS_ENC` and `SETTINGS_DEC` when the result exceeds the unit's capacity; `after`
  is the state it leaves, with `REFUSED` set (R175). Safe: the spec gives it no meaning. -/
  | capacity (after : State)
  /-- Raised by `step` alone, for a host move the spec says a host does not have: more bytes or entries than the capacity (R176), or
  a slice past the end of its byte sequence (R92); and for a slice with its ends swapped, which R91 leaves open (DESIGN CHOICE). No
  command raises it. Safe (log entry 11). -/
  | noSuchMove (move : HostMove)
  deriving DecidableEq, Repr

end Sys2Proof.Machine
end

