-- ==== Sys2Proof/Machine/Flags.lean ====
section
/-! DEFINITION. The codes and bits the block's commands set and test: status codes (R90), frame type tags (R76), frame flag bits
(R78, R141, R142, R151) and setting identifiers (R80). -/

namespace Sys2Proof.Machine

/-- The codec outcomes (R160). -/
inductive CodecOutcome where
  | ok
  | frameTooBig
  | shortHeader
  | shortFrame
  | invalid
  | unknown
  | notImplemented
  deriving DecidableEq, Repr

/-- The code an outcome has in `STATUS` (R90). -/
def outcomeCode : CodecOutcome → Byte
  | .ok => 0x00#8
  | .frameTooBig => 0x01#8
  | .shortHeader => 0x02#8
  | .shortFrame => 0x03#8
  | .invalid => 0x04#8
  | .unknown => 0x05#8
  | .notImplemented => 0x06#8

/-- The type tag of DATA (R76). -/
def typeData : Byte := 0x00#8

/-- The type tag of HEADERS (R76). -/
def typeHeaders : Byte := 0x01#8

/-- The type tag of SETTINGS (R76). -/
def typeSettings : Byte := 0x04#8

/-- The `ack` bit of a SETTINGS frame (R78). -/
def flagAck : Byte := 0x01#8

/-- The `end_stream` bit of a HEADERS or DATA frame (R78). -/
def flagEndStream : Byte := 0x01#8

/-- The `end_headers` bit of a HEADERS frame (R78). -/
def flagEndHeaders : Byte := 0x04#8

/-- The `padded` bit of a HEADERS or DATA frame (R78). -/
def flagPadded : Byte := 0x08#8

/-- The `priority` bit of a HEADERS frame (R78). -/
def flagPriority : Byte := 0x20#8

/-- "has flag" is bitwise AND (R32, R78). -/
def hasFlag (flags bit : Byte) : Bool := decide (flags &&& bit ≠ 0#8)

/-- The bit a boolean asks for, or no bit: `b ? bit : 0x00` (R130, R140). -/
def flagIf (b : Bool) (bit : Byte) : Byte := if b then bit else 0x00#8

/-- HEADERS refuses padded and prioritised frames: `(FLAGS & 0x28) ≠ 0` (R141). -/
def headersUnsupported (flags : Byte) : Bool := hasFlag flags (flagPadded ||| flagPriority)

/-- DATA refuses padded frames only: `(FLAGS & 0x08) ≠ 0` (R151). -/
def dataUnsupported (flags : Byte) : Bool := hasFlag flags flagPadded

/-- The flags of an encoded SETTINGS frame: the ack bit iff `ack`, every other bit 0 (R130). -/
def settingsFlags (ack : Bool) : Byte := flagIf ack flagAck

/-- The flags of an encoded HEADERS frame: the input flags OR'd with the bits the booleans ask for (R142). -/
def headersFlags (flags : Byte) (es eh : Bool) : Byte :=
  flags ||| flagIf es flagEndStream ||| flagIf eh flagEndHeaders

/-- The flags of an encoded DATA frame (R150). -/
def dataFlags (flags : Byte) (es : Bool) : Byte := flags ||| flagIf es flagEndStream

/-- An identifier of the six settings, 0x0001 to 0x0006 (R80, R81). -/
def knownSetting (id : Nat) : Bool := decide (1 ≤ id) && decide (id ≤ 6)

/-- The value a setting carries: `VAL ≠ 0` as 0 or 1 for EnablePush (identifier 2), the raw value otherwise (R29, R82, R121). -/
def settingValue (id : Nat) (v : Nat) : Nat := if id = 2 then (if v ≠ 0 then 1 else 0) else v

end Sys2Proof.Machine
end

