-- ==== Sys2Proof/Machine/Ops.lean ====
section
/-! DEFINITION. The named operations: the memory primitives over the byte buffers (R9), the start of a command (R30), and the ways
a command or a step ends: `done`, `raise`, `fault`, `refuse` (R10). The block has no trap, no trap entry and no return from one (R178,
R179): `raiseOutcome` is the one operation through which a command reports a non-OK outcome. -/

namespace Sys2Proof.Machine

/-- The outcome of a command or a step. -/
abbrev Out := Host.Outcome State Fault Refusal

/-- The unsigned big-endian value of a byte sequence, `Σ b[i] × 256^(n-1-i)` (R9, R53). -/
def beValue : Bytes → Nat
  | [] => 0
  | b :: bs => b.toNat * 256 ^ bs.length + beValue bs

/-- `BE(v, n)`: byte i is `(v >> (8 × (n-1-i))) & 0xFF` (R9). -/
def beBytes (v : Nat) : Nat → Bytes
  | 0 => []
  | n + 1 => BitVec.ofNat 8 (v >>> (8 * n)) :: beBytes v n

/-- `MemBytes(addr, n)` of a buffer; the caller has checked `addr + n ≤ |b|` (R9, R57). -/
def memBytes (b : Bytes) (addr n : Nat) : Bytes := (b.drop addr).take n

/-- `MemRead(addr, n)` of a buffer; the caller has checked `addr + n ≤ |b|` (R9, R57). -/
def memRead (b : Bytes) (addr n : Nat) : Nat := beValue (memBytes b addr n)

/-- `MemWrite(addr, n, v)` into a buffer; the caller has checked `addr + n ≤ |b|` (R9, R57). -/
def memWrite (b : Bytes) (addr n v : Nat) : Bytes := b.take addr ++ beBytes v n ++ b.drop (addr + n)

/-- `Append(v, n)` to a buffer (R9). -/
def memAppend (b : Bytes) (v n : Nat) : Bytes := b ++ beBytes v n

/-- `CopyIn()`: a fresh copy of the bytes of `BUF_IN` (R9, R55). -/
def copyIn (b : Bytes) : Bytes := b

/-- One byte of a buffer by its address; none past the end, where no address exists (R50, R52). -/
def readByte (b : Bytes) (addr : Nat) : Option Byte := b[addr]?

/-- The canonical form of a buffer: at most `BUF_CAPACITY` bytes (R50, R51). -/
def Memory.wf (capacity : Nat) (b : Bytes) : Bool := decide (b.length ≤ capacity)

/-- The value 0x7FFFFFFF that clears bit 31, the reserved bit of a stream id (R74, R102, R103). -/
def sidMask : Word := 0x7FFFFFFF#32

/-- The start of every command: every response register is set to `⊥` (R30). -/
def State.beginCommand (s : State) : State := { s with resp := {} }

/-- `done` (R10): the command ends OK with the response registers it wrote. -/
def finish (s : State) (r : Response) : Out :=
  .next { s with resp := { r with status := some (outcomeCode .ok) } }

/-- `raise` (R10, R160, R178): the command ends with a codec outcome and writes `STATUS` only. -/
def raiseOutcome (c : CodecOutcome) (s : State) : Out :=
  .next { s with resp := { status := some (outcomeCode c) } }

/-- `fault` (R10, R170): the step ends with a model fault; the state it leaves is marked `FAULTED`. -/
def takeFault (f : State → Fault) (s : State) : Out := .fault (f { s with faulted := true })

/-- `refuse` (R10, R175): the step ends with a refusal; the state it leaves is marked `REFUSED`. -/
def takeRefusal (r : State → Refusal) (s : State) : Out := .refused (r { s with refused := true })

/-- Reset (R190, R191): every register `⊥`, both marks 0. The unit's parameters and the host's own fields are not the unit's
registers and stay (log entry 14). -/
def State.afterReset (s : State) : State :=
  { s with req := {}, resp := {}, faulted := false, refused := false }

end Sys2Proof.Machine
end

