-- ==== Sys2Proof/Machine/Operands.lean ====
section
/-! DEFINITION. The operand forms: a command reads its operands from request registers (R24, R85), and a register holding `⊥` faults
UNWRITTEN_REQUEST at its first read on the path taken (R31, R171, R177). -/

namespace Sys2Proof.Machine

/-- Read a register and go on with its value; `⊥` is the model fault UNWRITTEN_REQUEST (R31, R171). -/
def need {α : Type} (r : Option α) (s : State) (k : α → Out) : Out :=
  match r with
  | some v => k v
  | none => takeFault .unwrittenRequest s

/-- Read the four registers of a header, `x[HDR_IN]` (R24). -/
def needHeader (r : HeaderReg) (s : State) (k : Header → Out) : Out :=
  need r.len s fun len =>
  need r.type s fun type =>
  need r.flags s fun flags =>
  need r.sid s fun sid =>
  k { len := len, type := type, flags := flags, sid := sid }

/-- Header registers holding the four fields of a header value. -/
def HeaderReg.of (h : Header) : HeaderReg :=
  { len := some h.len, type := some h.type, flags := some h.flags, sid := some h.sid }

/-- The header value four registers hold; none if any of them holds `⊥`. -/
def HeaderReg.value (r : HeaderReg) : Option Header :=
  match r.len, r.type, r.flags, r.sid with
  | some len, some type, some flags, some sid => some { len := len, type := type, flags := flags, sid := sid }
  | _, _, _, _ => none

/-- The setting record of an identifier and a value: `identifier:16 | value:32`, big-endian (R75). -/
def settingRecord (id v : Nat) : Bytes := memAppend (memAppend [] id 2) v 4

/-- The setting record that starts at an address of a buffer, decoded: none for an identifier outside 1 to 6 (R75, R80, R81, R122). -/
def decodeRecord (b : Bytes) (addr : Nat) : Option Setting :=
  let id := memRead b addr 2
  let v := memRead b (addr + 2) 4
  if knownSetting id then some { kind := BitVec.ofNat 16 id, val := BitVec.ofNat 32 (settingValue id v) } else none

end Sys2Proof.Machine
end

