-- ==== Sys2Proof/Machine/DataFrame.lean ====
section
/-! DEFINITION. The DATA frame codec `DATA_ENC`, `DATA_DEC` (R150 to R153). -/

namespace Sys2Proof.Machine

/-- `DATA_ENC` (R150, R151): NOT_IMPLEMENTED for a padded frame, else the data and its header. `HDR_IN.LEN` and `HDR_IN.TYPE` are not
used (log entry 7). -/
def execDataEnc (s : State) : Out :=
  let u := s.beginCommand
  need u.req.hdrIn.flags u fun f =>
  if dataUnsupported f then raiseOutcome .notImplemented u
  else
    need u.req.esIn u fun es =>
    need u.req.bufIn u fun b =>
    need u.req.hdrIn.sid u fun sid =>
    finish u
      { hdrOut := HeaderReg.of { len := BitVec.ofNat 32 b.length, type := typeData, flags := dataFlags f es, sid := sid }
        bufOut := some (copyIn b) }

/-- `DATA_DEC` (R151, R152): NOT_IMPLEMENTED for a padded frame, else the header verbatim, `end_stream` and the data. -/
def execDataDec (s : State) : Out :=
  let u := s.beginCommand
  need u.req.hdrIn.flags u fun f =>
  if dataUnsupported f then raiseOutcome .notImplemented u
  else
    needHeader u.req.hdrIn u fun h =>
    need u.req.bufIn u fun b =>
    finish u
      { hdrOut := HeaderReg.of h
        esOut := some (hasFlag f flagEndStream)
        bufOut := some (copyIn b) }

end Sys2Proof.Machine
end

