-- ==== Sys2Proof/Machine/HeaderCodec.lean ====
section
/-! DEFINITION. The frame header codec `HDR_ENC`, `HDR_DEC` (R110 to R114) over the 9-byte layout of R70. -/

namespace Sys2Proof.Machine

/-- The 9 bytes of a header: length 3, type 1, flags 1, stream id 4 with its reserved bit cleared (R70, R110, R111). -/
def encodeHeader (h : Header) : Bytes :=
  beBytes h.len.toNat 3 ++ [h.type] ++ [h.flags] ++ beBytes (h.sid &&& sidMask).toNat 4

/-- The header in the first 9 bytes of a buffer; the reserved bit is ignored (R70, R112). -/
def decodeHeader (b : Bytes) : Header where
  len := BitVec.ofNat 32 (memRead b 0 3)
  type := BitVec.ofNat 8 (memRead b 3 1)
  flags := BitVec.ofNat 8 (memRead b 4 1)
  sid := BitVec.ofNat 32 (memRead b 5 4) &&& sidMask

/-- `HDR_ENC` (R110): FRAME_TOO_BIG when the length does not fit 24 bits, else the 9 bytes in `BUF_OUT`. -/
def execHdrEnc (s : State) : Out :=
  let u := s.beginCommand
  need u.req.hdrIn.len u fun len =>
  if 2 ^ 24 ≤ len.toNat then raiseOutcome .frameTooBig u
  else
    need u.req.hdrIn.type u fun type =>
    need u.req.hdrIn.flags u fun flags =>
    need u.req.hdrIn.sid u fun sid =>
    finish u { bufOut := some (encodeHeader { len := len, type := type, flags := flags, sid := sid }) }

/-- `HDR_DEC` (R112): SHORT_HEADER when `BUF_IN` has fewer than 9 bytes, else the four fields in `HDR_OUT`. -/
def execHdrDec (s : State) : Out :=
  let u := s.beginCommand
  need u.req.bufIn u fun b =>
  if b.length < 9 then raiseOutcome .shortHeader u
  else finish u { hdrOut := HeaderReg.of (decodeHeader b) }

end Sys2Proof.Machine
end

