-- ==== Sys2Proof/Machine/HeadersFrame.lean ====
section
/-! DEFINITION. The HEADERS frame codec `HEADERS_ENC`, `HEADERS_DEC` (R140 to R145). -/

namespace Sys2Proof.Machine

/-- `HEADERS_ENC` (R140 to R142): NOT_IMPLEMENTED for a padded or prioritised frame, else the block and its header. `HDR_IN.LEN` and
`HDR_IN.TYPE` are not used (log entry 7). -/
def execHeadersEnc (s : State) : Out :=
  let u := s.beginCommand
  need u.req.hdrIn.flags u fun f =>
  if headersUnsupported f then raiseOutcome .notImplemented u
  else
    need u.req.esIn u fun es =>
    need u.req.ehIn u fun eh =>
    need u.req.bufIn u fun b =>
    need u.req.hdrIn.sid u fun sid =>
    finish u
      { hdrOut := HeaderReg.of { len := BitVec.ofNat 32 b.length, type := typeHeaders, flags := headersFlags f es eh, sid := sid }
        bufOut := some (copyIn b) }

/-- `HEADERS_DEC` (R143): NOT_IMPLEMENTED for a padded or prioritised frame, else the header verbatim, its two flags and the block. -/
def execHeadersDec (s : State) : Out :=
  let u := s.beginCommand
  need u.req.hdrIn.flags u fun f =>
  if headersUnsupported f then raiseOutcome .notImplemented u
  else
    needHeader u.req.hdrIn u fun h =>
    need u.req.bufIn u fun b =>
    finish u
      { hdrOut := HeaderReg.of h
        esOut := some (hasFlag f flagEndStream)
        ehOut := some (hasFlag f flagEndHeaders)
        bufOut := some (copyIn b) }

end Sys2Proof.Machine
end

