-- ==== Sys2Proof/Machine/Integer.lean ====
section
/-! DEFINITION. The integer codec primitives `READ_U24`, `WRITE_U24`, `READ_U31`, `WRITE_U31` (R100 to R103). -/

namespace Sys2Proof.Machine

/-- `READ_U24` (R100): the first 3 bytes of `BUF_IN` as an unsigned big-endian integer. -/
def execReadU24 (s : State) : Out :=
  let u := s.beginCommand
  need u.req.bufIn u fun b =>
  if b.length < 3 then takeFault (.precondition .readU24Short) u
  else finish u { valOut := some (BitVec.ofNat 32 (memRead b 0 3)) }

/-- `WRITE_U24` (R101): a copy of `BUF_IN` with its first 3 bytes replaced by `VAL_IN`, which must fit 24 bits. -/
def execWriteU24 (s : State) : Out :=
  let u := s.beginCommand
  need u.req.bufIn u fun b =>
  if b.length < 3 then takeFault (.precondition .writeU24Short) u
  else
    need u.req.valIn u fun v =>
    if 2 ^ 24 ≤ v.toNat then takeFault (.precondition .writeU24Wide) u
    else finish u { bufOut := some (memWrite (copyIn b) 0 3 v.toNat) }

/-- `READ_U31` (R102): the first 4 bytes of `BUF_IN` as an unsigned big-endian integer with bit 31 cleared. -/
def execReadU31 (s : State) : Out :=
  let u := s.beginCommand
  need u.req.bufIn u fun b =>
  if b.length < 4 then takeFault (.precondition .readU31Short) u
  else finish u { valOut := some (BitVec.ofNat 32 (memRead b 0 4) &&& sidMask) }

/-- `WRITE_U31` (R103): a copy of `BUF_IN` with its first 4 bytes replaced by `VAL_IN` with bit 31 cleared. -/
def execWriteU31 (s : State) : Out :=
  let u := s.beginCommand
  need u.req.bufIn u fun b =>
  if b.length < 4 then takeFault (.precondition .writeU31Short) u
  else
    need u.req.valIn u fun v =>
    finish u { bufOut := some (memWrite (copyIn b) 0 4 (v &&& sidMask).toNat) }

end Sys2Proof.Machine
end

