-- ==== Sys2Proof/Machine/SettingCodec.lean ====
section
/-! DEFINITION. The setting codec `SET_ENC`, `SET_DEC` (R120 to R124) over the 6-byte record of R75. -/

namespace Sys2Proof.Machine

/-- `SET_ENC` (R120): `BUF_IN` extended by the record of (`KIND_IN`, `VAL_IN`); kind 0 is the none sentinel and adds nothing. -/
def execSetEnc (s : State) : Out :=
  let u := s.beginCommand
  need u.req.kindIn u fun k =>
  if k.toNat = 0 then
    need u.req.bufIn u fun b =>
    finish u { bufOut := some (copyIn b) }
  else if 6 < k.toNat then takeFault .illegalOperand u
  else
    need u.req.valIn u fun v =>
    need u.req.bufIn u fun b =>
    if s.cfg.bufCapacity < b.length + 6 then takeRefusal .capacity u
    else
      finish u { bufOut := some (memAppend (memAppend (copyIn b) k.toNat 2) (settingValue k.toNat v.toNat) 4) }

/-- `SET_DEC` (R122): INVALID under 6 bytes, UNKNOWN for an identifier outside 1 to 6, else the kind and value of the first record. -/
def execSetDec (s : State) : Out :=
  let u := s.beginCommand
  need u.req.bufIn u fun b =>
  if b.length < 6 then raiseOutcome .invalid u
  else
    match decodeRecord b 0 with
    | some e => finish u { kindOut := some e.kind, valOut := some e.val }
    | none => raiseOutcome .unknown u

end Sys2Proof.Machine
end

