-- ==== Sys2Proof/Machine/SettingsFrame.lean ====
section
/-! DEFINITION. The SETTINGS frame codec `SETTINGS_ENC`, `SETTINGS_DEC` (R130 to R135). -/

namespace Sys2Proof.Machine

/-- The payload of a setting list, in list order: kind 0 adds no bytes, a kind of 7 or more has none (R130, R134). -/
def encodeSettings : List Setting → Option Bytes
  | [] => some []
  | e :: es =>
    if e.kind.toNat = 0 then encodeSettings es
    else if 6 < e.kind.toNat then none
    else
      match encodeSettings es with
      | some p => some (settingRecord e.kind.toNat (settingValue e.kind.toNat e.val.toNat) ++ p)
      | none => none

/-- The known settings in the first `n` records of a payload, in order; unknown records are skipped (R132, R134). -/
def decodeSettings : Nat → Bytes → List Setting
  | 0, _ => []
  | n + 1, b => (decodeRecord b 0).toList ++ decodeSettings n (b.drop 6)

/-- `SETTINGS_ENC` (R130, R131): the payload of `SET_IN` and the header derived from it and from `ACK_IN`. -/
def execSettingsEnc (s : State) : Out :=
  let u := s.beginCommand
  need u.req.setIn u fun l =>
  match encodeSettings l with
  | none => takeFault .illegalOperand u
  | some p =>
    if s.cfg.bufCapacity < p.length then takeRefusal .capacity u
    else
      need u.req.ackIn u fun ack =>
      finish u
        { hdrOut := HeaderReg.of { len := BitVec.ofNat 32 p.length, type := typeSettings, flags := settingsFlags ack, sid := 0#32 }
          bufOut := some p }

/-- `SETTINGS_DEC` (R132, R133): SHORT_FRAME when the payload is no multiple of 6, else its known settings, the header verbatim and
the ack bit. -/
def execSettingsDec (s : State) : Out :=
  let u := s.beginCommand
  need u.req.bufIn u fun b =>
  if b.length ≠ 0 ∧ b.length % 6 ≠ 0 then raiseOutcome .shortFrame u
  else
    let l := decodeSettings (b.length / 6) b
    if s.cfg.setCapacity < l.length then takeRefusal .capacity u
    else
      needHeader u.req.hdrIn u fun h =>
      finish u { hdrOut := HeaderReg.of h, ackOut := some (hasFlag h.flags flagAck), setOut := some l }

end Sys2Proof.Machine
end

