-- ==== Sys2Proof/Machine/Dispatch.lean ====
section
/-! DEFINITION. One command of the unit: one arm per row of the command map (R86), each one call of that command's meaning. -/

namespace Sys2Proof.Machine

def exec (i : Instr) (s : State) : Host.Outcome State Fault Refusal :=
  match i with
  | .readU24 => Sys2Proof.Machine.execReadU24 s
  | .writeU24 => Sys2Proof.Machine.execWriteU24 s
  | .readU31 => Sys2Proof.Machine.execReadU31 s
  | .writeU31 => Sys2Proof.Machine.execWriteU31 s
  | .hdrEnc => Sys2Proof.Machine.execHdrEnc s
  | .hdrDec => Sys2Proof.Machine.execHdrDec s
  | .setEnc => Sys2Proof.Machine.execSetEnc s
  | .setDec => Sys2Proof.Machine.execSetDec s
  | .settingsEnc => Sys2Proof.Machine.execSettingsEnc s
  | .settingsDec => Sys2Proof.Machine.execSettingsDec s
  | .headersEnc => Sys2Proof.Machine.execHeadersEnc s
  | .headersDec => Sys2Proof.Machine.execHeadersDec s
  | .dataEnc => Sys2Proof.Machine.execDataEnc s
  | .dataDec => Sys2Proof.Machine.execDataDec s

end Sys2Proof.Machine
end

