-- ==== Sys2Proof/Machine/HostPort.lean ====
section
/-! DEFINITION. The host's side of the interface: writing request registers, issuing a command, forwarding a header, reading a
response, reset (R20, R26, R31, R85, R91, R190), and the two fixed expansions `SEND` and `RECV` (R92). -/

namespace Sys2Proof.Machine

/-- A host move the spec says a host does not have (R176); log entry 11. -/
def noSuchMove (m : HostMove) : Out := .refused (.noSuchMove m)

/-- `s[a:b]`, bytes a to b - 1 (R91), empty for `a = b`; none past the end (R92). With `a > b` R91 leaves open whether it is empty or no
slice: none here, DESIGN CHOICE, log entry 11, safe. -/
def sliceOf (w : Bytes) (a b : Nat) : Option Bytes :=
  if a ≤ b ∧ b ≤ w.length then some (memBytes w a (b - a)) else none

/-- Put a byte sequence into `BUF_IN` (R50); more than `BUF_CAPACITY` bytes is no move of a host (R176). -/
def placeBufIn (m : HostMove) (bs : Option Bytes) (s : State) : Out :=
  match bs with
  | none => noSuchMove m
  | some b =>
    if s.cfg.bufCapacity < b.length then noSuchMove m
    else .next { s with req := { s.req with bufIn := some b } }

/-- `WR BUF_IN = …` (R91). A source that is a response register holding `⊥` is a host read of it, hence UNWRITTEN_REQUEST (R31, R171). -/
def writeBufIn (src : BufSource) (s : State) : Out :=
  let m := HostMove.wr (.bufIn src)
  match src with
  | .lit b => placeBufIn m (some b) s
  | .bufOut => need s.resp.bufOut s fun b => placeBufIn m (some b) s
  | .bufOutSlice a z => need s.resp.bufOut s fun b => placeBufIn m (sliceOf b a z) s
  | .slice w a z => placeBufIn m (sliceOf w a z) s
  | .payload w => need s.resp.hdrOut.len s fun len => placeBufIn m (sliceOf w 9 (9 + len.toNat)) s

/-- A `(KIND, VAL)` pair as the register holds it (R26). -/
def settingOfPair (p : Nat × Nat) : Setting := { kind := BitVec.ofNat 16 p.1, val := BitVec.ofNat 32 p.2 }

/-- A header as the registers hold it (R26). -/
def headerOfLit (h : HeaderLit) : Header :=
  { len := BitVec.ofNat 32 h.len, type := BitVec.ofNat 8 h.type, flags := BitVec.ofNat 8 h.flags, sid := BitVec.ofNat 32 h.sid }

/-- A natural taken modulo 2 as a 1-bit register holds it (R26). -/
def bitOfNat (v : Nat) : Bool := decide (v % 2 = 1)

/-- A host write of a request register; the value is taken modulo 2^width (R22, R26, R91). -/
def hostWrite (x : ReqWrite) (s : State) : Out :=
  match x with
  | .hdrIn h => .next { s with req := { s.req with hdrIn := HeaderReg.of (headerOfLit h) } }
  | .hdrInLen v => .next { s with req := { s.req with hdrIn := { s.req.hdrIn with len := some (BitVec.ofNat 32 v) } } }
  | .hdrInType v => .next { s with req := { s.req with hdrIn := { s.req.hdrIn with type := some (BitVec.ofNat 8 v) } } }
  | .hdrInFlags v => .next { s with req := { s.req with hdrIn := { s.req.hdrIn with flags := some (BitVec.ofNat 8 v) } } }
  | .hdrInSid v => .next { s with req := { s.req with hdrIn := { s.req.hdrIn with sid := some (BitVec.ofNat 32 v) } } }
  | .bufIn src => writeBufIn src s
  | .valIn v => .next { s with req := { s.req with valIn := some (BitVec.ofNat 32 v) } }
  | .kindIn v => .next { s with req := { s.req with kindIn := some (BitVec.ofNat 16 v) } }
  | .ackIn v => .next { s with req := { s.req with ackIn := some (bitOfNat v) } }
  | .esIn v => .next { s with req := { s.req with esIn := some (bitOfNat v) } }
  | .ehIn v => .next { s with req := { s.req with ehIn := some (bitOfNat v) } }
  | .setIn es =>
    if s.cfg.setCapacity < es.length then noSuchMove (.wr (.setIn es))
    else .next { s with req := { s.req with setIn := some (es.map settingOfPair) } }

/-- The value a response register holds; none for `⊥` (R23). -/
def readResp (r : RespReg) (p : Response) : Option RegVal :=
  match r with
  | .status => p.status.map .byte
  | .hdrOut => p.hdrOut.value.map .header
  | .hdrOutLen => p.hdrOut.len.map .word
  | .hdrOutType => p.hdrOut.type.map .byte
  | .hdrOutFlags => p.hdrOut.flags.map .byte
  | .hdrOutSid => p.hdrOut.sid.map .word
  | .bufOut => p.bufOut.map .bytes
  | .valOut => p.valOut.map .word
  | .kindOut => p.kindOut.map .half
  | .ackOut => p.ackOut.map .bit
  | .esOut => p.esOut.map .bit
  | .ehOut => p.ehOut.map .bit
  | .setOut => p.setOut.map .settings

/-- `RD <reg>` (R91): the host reads a response register; `⊥` is UNWRITTEN_REQUEST charged to the host (R31, R171). -/
def hostRead (r : RespReg) (s : State) : Out :=
  need (readResp r s.resp) s fun v => .next { s with seen := v :: s.seen }

/-- `FWD HDR_OUT -> HDR_IN` (R91): the host copies the four response header fields into the request header. -/
def forwardHeader (s : State) : Out :=
  needHeader s.resp.hdrOut s fun h => .next { s with req := { s.req with hdrIn := HeaderReg.of h } }

/-- The host's write of a command word to `CMD` (R22, R85). -/
def State.withCmd (s : State) (w : Byte) : State := { s with req := { s.req with cmd := some w } }

/-- Writing `CMD` issues the command (R85). An illegal word is tested before anything else (R177): it faults ILLEGAL_COMMAND, and
nothing is read or written but `FAULTED` (R172; log entry 6). -/
def issueCommand (w : Byte) (s : State) : Out :=
  match decode [w] with
  | .ok (i, _) => exec i (s.withCmd w)
  | .error _ => takeFault .illegalCommand (s.withCmd w)

/-- One move of the host (R20, R91). -/
def performMove (m : HostMove) (s : State) : Out :=
  match m with
  | .cmd w => issueCommand (BitVec.ofNat 8 w) s
  | .wr x => hostWrite x s
  | .fwd => forwardHeader s
  | .rd r => hostRead r s
  | .reset => .next s.afterReset

/-- One step of a unit and its host: the host's next move; where the host makes none, nothing changes, for the unit has no step of
its own (R20; log entry 4). -/
def stepHost (s : State) : Out :=
  match s.script with
  | [] => .next s
  | m :: rest => performMove m { s with script := rest }

/-- A host's write of an instruction of `nbits` bits `w` to `CMD` put before its other moves, so that it is the next one. -/
def State.withNextCommand (s : State) (nbits w : Nat) : State :=
  { s with script := .cmd (w % 2 ^ nbits) :: s.script }

/-- The encode command of a frame type (R86). -/
def frameEnc : FrameKind → Instr
  | .settings => .settingsEnc
  | .headers => .headersEnc
  | .data => .dataEnc

/-- The decode command of a frame type (R86). -/
def frameDec : FrameKind → Instr
  | .settings => .settingsDec
  | .headers => .headersDec
  | .data => .dataDec

/-- A `<MNEMONIC>` line: the host writes the command's word (R91). -/
def issue (i : Instr) : HostMove := .cmd (encodeWord i).toNat

/-- `SEND <F>` (R92): `<F>_ENC`; keep `P = BUF_OUT`; `FWD HDR_OUT -> HDR_IN`; `HDR_ENC`. -/
def sendMoves (f : FrameKind) : List HostMove :=
  [issue (frameEnc f), .rd .bufOut, .fwd, issue .hdrEnc]

/-- `RECV <F> W` (R92): header bytes, `HDR_DEC`, forward, payload bytes, `<F>_DEC`. -/
def recvMoves (f : FrameKind) (w : Bytes) : List HostMove :=
  [.wr (.bufIn (.slice w 0 9)), issue .hdrDec, .fwd, .wr (.bufIn (.payload w)), issue (frameDec f)]

/-- The wire bytes after `SEND`: `BUF_OUT ++ P`, with `P` what the host read last (R92). -/
def wireBytes (s : State) : Option Bytes :=
  match s.resp.bufOut, s.seen with
  | some h, .bytes p :: _ => some (h ++ p)
  | _, _ => none

end Sys2Proof.Machine
end

