-- ==== Sys2Proof/Machine/Step.lean ====
section
/-! DEFINITION. One step: the host's next move, and with it the command it issues (R20, R59, R85). -/

namespace Sys2Proof.Machine

/-- One step of a unit and its host: a next state, a fault or a refusal. -/
def step (s : State) : Host.Outcome State Fault Refusal := stepHost s

/-- `s` with the instruction of `nbits` bits `w` as the command word the host writes next, so that `step` issues it (log entry 3). -/
def State.withFetchWord (s : State) (nbits w : Nat) : State := s.withNextCommand nbits w

end Sys2Proof.Machine
end

