-- ==== Sys2Proof/Machine/System.lean ====
section
/-! DEFINITION. `N_UNITS` independent units, each with its own host (R6, R60, R184): they share no state, and the order of commands on
different units is any interleaving, so which unit moves next is an argument (log entry 8). -/

namespace Sys2Proof.Machine

/-- The units of a system, in no order the spec gives a meaning to (R184: units have no identifier). -/
structure System where
  units : List State
  deriving DecidableEq, Repr

/-- `N_UNITS` units right after reset (R6, R190). -/
def System.reset : System where
  units := List.replicate Config.nUnits State.reset

/-- A system has `N_UNITS` units (R6). -/
def System.wf (y : System) : Prop := y.units.length = Config.nUnits

/-- Unit `k` and its host make one step; where there is no unit `k`, nothing moves. A fault or refusal of a unit ends the run (R179). -/
def System.step (k : Nat) (y : System) : Host.Outcome System Fault Refusal :=
  match y.units[k]? with
  | none => .next y
  | some s =>
    match Machine.step s with
    | .next t => .next { y with units := y.units.set k t }
    | .fault f => .fault f
    | .refused r => .refused r

end Sys2Proof.Machine
end

