-- ==== Sys2Proof/WellFormed.lean ====
section
/-! DEFINITION. Which terms of the syntax the spec admits: every command (a command word has no operand, R85), a parameter choice
inside the ranges of R6, a setting entry whose kind names a variant or the none sentinel (R28). -/

namespace Sys2Proof

/-- A command word has no operand or immediate field (R85), so every command is well formed. -/
def Instr.wf : Instr → Bool
  | .readU24 | .writeU24 | .readU31 | .writeU31 => true
  | .hdrEnc | .hdrDec => true
  | .setEnc | .setDec => true
  | .settingsEnc | .settingsDec => true
  | .headersEnc | .headersDec => true
  | .dataEnc | .dataDec => true

/-- The parameter ranges of R6: `9 ≤ BUF_CAPACITY ≤ 2^32 - 1` and `SET_CAPACITY ≥ 1`. -/
def Config.wf (c : Config) : Bool :=
  decide (9 ≤ c.bufCapacity) && decide (c.bufCapacity ≤ 2 ^ 32 - 1) && decide (1 ≤ c.setCapacity)

/-- A kind code that names a setting variant (1 to 6) or the none sentinel (0); 7 to 0xFFFF name none (R28). -/
def Machine.Setting.wf (e : Machine.Setting) : Bool :=
  decide (e.kind.toNat ≤ 6)

end Sys2Proof
end

