-- ==== Sys2Proof/Safety.lean ====
section
/-! DEFINITION. What claims about runs are stated in: which response registers hold a value, what a fault or refusal leaves, and the
invariant that every step keeps. -/

namespace Sys2Proof.Machine

/-! ### What the wire holds, as the spec's layouts say it (R53, R70, R75) -/

/-- The 2 bytes of a 16-bit field, most significant first (R53). -/
def wireHalf (v : Half) : Bytes := [v.extractLsb' 8 8, v.extractLsb' 0 8]

/-- The 4 bytes of a 32-bit field, most significant first (R53, R54). -/
def wireWord (v : Word) : Bytes := [v.extractLsb' 24 8, v.extractLsb' 16 8, v.extractLsb' 8 8, v.extractLsb' 0 8]

/-- A 31-bit field in 4 bytes: the reserved top bit written 0 (R74). -/
def wireSid (v : Word) : Bytes := wireWord (v &&& 0x7FFFFFFF#32)

/-- The 9 bytes of a header (R70). -/
def wireHeader (h : Header) : Bytes :=
  [h.len.extractLsb' 16 8, h.len.extractLsb' 8 8, h.len.extractLsb' 0 8, h.type, h.flags] ++ wireSid h.sid

/-- The value of a setting as the boolean kind restricts it: 0 or 1 for EnablePush (R29). -/
def wireValue (e : Setting) : Word := if e.kind = 2#16 then (if e.val = 0#32 then 0#32 else 1#32) else e.val

/-- The 6 bytes of a setting record (R75, R82). -/
def wireSetting (e : Setting) : Bytes := wireHalf e.kind ++ wireWord (wireValue e)

/-- The setting a 6-byte record decodes to; none for an identifier outside 1 to 6 (R75, R80, R81, R82). -/
def settingOfWire : Bytes → Option Setting
  | [i0, i1, v0, v1, v2, v3] =>
    let e : Setting := { kind := i0 ++ i1, val := v0 ++ v1 ++ v2 ++ v3 }
    if e.kind = 0#16 ∨ 6#16 < e.kind then none else some { e with val := wireValue e }
  | _ => none

/-- The entries of a setting list that are not the none sentinel (R130). -/
def realSettings (l : List Setting) : List Setting := l.filter fun e => decide (e.kind ≠ 0#16)

/-! ### The spec's tables over all commands -/

/-- `HDR_OUT` and its four fields (R23). -/
def hdrOutRegs : List RespReg := [.hdrOut, .hdrOutLen, .hdrOutType, .hdrOutFlags, .hdrOutSid]

/-- The "reads" column of R24. -/
def readsOf : Instr → List ReqReg
  | .readU24 => [.bufIn]
  | .writeU24 => [.bufIn, .valIn]
  | .readU31 => [.bufIn]
  | .writeU31 => [.bufIn, .valIn]
  | .hdrEnc => [.hdrIn]
  | .hdrDec => [.bufIn]
  | .setEnc => [.bufIn, .kindIn, .valIn]
  | .setDec => [.bufIn]
  | .settingsEnc => [.ackIn, .setIn]
  | .settingsDec => [.hdrIn, .bufIn]
  | .headersEnc => [.hdrIn, .esIn, .ehIn, .bufIn]
  | .headersDec => [.hdrIn, .bufIn]
  | .dataEnc => [.hdrIn, .esIn, .bufIn]
  | .dataDec => [.hdrIn, .bufIn]

/-- The "writes on OK" column of R24, with `STATUS`. -/
def writesOnOk : Instr → List RespReg
  | .readU24 => [.status, .valOut]
  | .writeU24 => [.status, .bufOut]
  | .readU31 => [.status, .valOut]
  | .writeU31 => [.status, .bufOut]
  | .hdrEnc => [.status, .bufOut]
  | .hdrDec => .status :: hdrOutRegs
  | .setEnc => [.status, .bufOut]
  | .setDec => [.status, .kindOut, .valOut]
  | .settingsEnc => .status :: .bufOut :: hdrOutRegs
  | .settingsDec => .status :: .ackOut :: .setOut :: hdrOutRegs
  | .headersEnc => .status :: .bufOut :: hdrOutRegs
  | .headersDec => .status :: .esOut :: .ehOut :: .bufOut :: hdrOutRegs
  | .dataEnc => .status :: .bufOut :: hdrOutRegs
  | .dataDec => .status :: .esOut :: .bufOut :: hdrOutRegs

/-- The possible outcomes of R163. -/
def outcomesOf : Instr → List CodecOutcome
  | .readU24 | .writeU24 | .readU31 | .writeU31 => [.ok]
  | .hdrEnc => [.ok, .frameTooBig]
  | .hdrDec => [.ok, .shortHeader]
  | .setEnc => [.ok]
  | .setDec => [.ok, .invalid, .unknown]
  | .settingsEnc => [.ok]
  | .settingsDec => [.ok, .shortFrame]
  | .headersEnc | .headersDec | .dataEnc | .dataDec => [.ok, .notImplemented]

/-- When a command ends OK: its operands hold values and pass the tests of its rule (R100 to R152). -/
def ready (i : Instr) (s : State) : Bool :=
  match i with
  | .readU24 => s.req.bufIn.any fun b => decide (3 ≤ b.length)
  | .writeU24 => s.req.bufIn.any (fun b => decide (3 ≤ b.length)) && s.req.valIn.any fun v => decide (v.toNat < 2 ^ 24)
  | .readU31 => s.req.bufIn.any fun b => decide (4 ≤ b.length)
  | .writeU31 => s.req.bufIn.any (fun b => decide (4 ≤ b.length)) && s.req.valIn.isSome
  | .hdrEnc => s.req.hdrIn.value.any fun h => decide (h.len.toNat < 2 ^ 24)
  | .hdrDec => s.req.bufIn.any fun b => decide (9 ≤ b.length)
  | .setEnc =>
    s.req.kindIn.any fun k =>
      if k = 0#16 then s.req.bufIn.isSome
      else
        decide (k.toNat ≤ 6) && s.req.valIn.isSome && s.req.bufIn.any fun b => decide (b.length + 6 ≤ s.cfg.bufCapacity)
  | .setDec => s.req.bufIn.any fun b => decide (6 ≤ b.length) && (settingOfWire (b.take 6)).isSome
  | .settingsEnc =>
    s.req.setIn.any (fun l => l.all Setting.wf && decide (6 * (realSettings l).length ≤ s.cfg.bufCapacity)) && s.req.ackIn.isSome
  | .settingsDec =>
    s.req.bufIn.any (fun b =>
      decide (b.length % 6 = 0) && decide ((decodeSettings (b.length / 6) b).length ≤ s.cfg.setCapacity))
      && s.req.hdrIn.value.isSome
  | .headersEnc =>
    s.req.hdrIn.flags.any (fun f => !headersUnsupported f) && s.req.hdrIn.sid.isSome && s.req.esIn.isSome && s.req.ehIn.isSome
      && s.req.bufIn.isSome
  | .headersDec => s.req.hdrIn.value.any (fun h => !headersUnsupported h.flags) && s.req.bufIn.isSome
  | .dataEnc =>
    s.req.hdrIn.flags.any (fun f => !dataUnsupported f) && s.req.hdrIn.sid.isSome && s.req.esIn.isSome && s.req.bufIn.isSome
  | .dataDec => s.req.hdrIn.value.any (fun h => !dataUnsupported h.flags) && s.req.bufIn.isSome

/-- When a command reads a request register holding `⊥` on the path it takes: the register is read first, or every test made before
its read lets the command go on (R171, R177). -/
def readsBottom (i : Instr) (s : State) : Bool :=
  match i with
  | .readU24 | .readU31 | .hdrDec | .setDec => s.req.bufIn.isNone
  | .writeU24 => s.req.bufIn.all fun b => decide (3 ≤ b.length) && s.req.valIn.isNone
  | .writeU31 => s.req.bufIn.all fun b => decide (4 ≤ b.length) && s.req.valIn.isNone
  | .hdrEnc => s.req.hdrIn.len.all fun len => decide (len.toNat < 2 ^ 24) && s.req.hdrIn.value.isNone
  | .setEnc =>
    s.req.kindIn.all fun k =>
      if k = 0#16 then s.req.bufIn.isNone else decide (k.toNat ≤ 6) && (s.req.valIn.isNone || s.req.bufIn.isNone)
  | .settingsEnc =>
    s.req.setIn.all fun l =>
      l.all Setting.wf && decide (6 * (realSettings l).length ≤ s.cfg.bufCapacity) && s.req.ackIn.isNone
  | .settingsDec =>
    s.req.bufIn.all fun b =>
      decide (b.length % 6 = 0) && decide ((decodeSettings (b.length / 6) b).length ≤ s.cfg.setCapacity)
        && s.req.hdrIn.value.isNone
  | .headersEnc =>
    s.req.hdrIn.flags.all fun f =>
      !headersUnsupported f
        && (s.req.esIn.isNone || s.req.ehIn.isNone || s.req.bufIn.isNone || s.req.hdrIn.sid.isNone)
  | .headersDec => s.req.hdrIn.flags.all fun f => !headersUnsupported f && (s.req.hdrIn.value.isNone || s.req.bufIn.isNone)
  | .dataEnc =>
    s.req.hdrIn.flags.all fun f =>
      !dataUnsupported f && (s.req.esIn.isNone || s.req.bufIn.isNone || s.req.hdrIn.sid.isNone)
  | .dataDec => s.req.hdrIn.flags.all fun f => !dataUnsupported f && (s.req.hdrIn.value.isNone || s.req.bufIn.isNone)

/-- Two request sets hold the same in one register (R22). -/
def Request.agreeOn (r : ReqReg) (p q : Request) : Bool :=
  match r with
  | .hdrIn => decide (p.hdrIn = q.hdrIn)
  | .bufIn => decide (p.bufIn = q.bufIn)
  | .valIn => decide (p.valIn = q.valIn)
  | .kindIn => decide (p.kindIn = q.kindIn)
  | .ackIn => decide (p.ackIn = q.ackIn)
  | .esIn => decide (p.esIn = q.esIn)
  | .ehIn => decide (p.ehIn = q.ehIn)
  | .setIn => decide (p.setIn = q.setIn)

/-- A request register holds `⊥`; for `HDR_IN`, one of its four fields does (R31). -/
def Request.bottom (r : ReqReg) (p : Request) : Bool :=
  match r with
  | .hdrIn => p.hdrIn.value.isNone
  | .bufIn => p.bufIn.isNone
  | .valIn => p.valIn.isNone
  | .kindIn => p.kindIn.isNone
  | .ackIn => p.ackIn.isNone
  | .esIn => p.esIn.isNone
  | .ehIn => p.ehIn.isNone
  | .setIn => p.setIn.isNone

/-! ### The header as one operand -/

/-- A header register holds four values or none, as every host move of R91 leaves it (R24). -/
def HeaderReg.whole (r : HeaderReg) : Bool := decide (r = {}) || r.value.isSome

/-- A host write of one field of `HDR_IN` alone, which R22 allows and R91 does not show (log entry 18). -/
def HostMove.writesOneField : HostMove → Bool
  | .wr (.hdrInLen _) => true
  | .wr (.hdrInType _) => true
  | .wr (.hdrInFlags _) => true
  | .wr (.hdrInSid _) => true
  | _ => false

/-! ### What a host write does -/

/-- The end of a host write: the move done, the request registers `q`, all else as before (R22). -/
def State.afterWrite (s : State) (rest : List HostMove) (q : Request) : Out := .next { s with script := rest, req := q }

/-- `b` is bytes `a` to `z - 1` of `w`, `w[a:z]` (R91). -/
def isSlice (w : Bytes) (a z : Nat) (b : Bytes) : Prop :=
  ∃ pre post : Bytes, w = pre ++ b ++ post ∧ pre.length = a ∧ a + b.length = z

/-- The bytes a source names, beside given responses (R91, R92). -/
def BufSource.names (src : BufSource) (p : Response) (b : Bytes) : Prop :=
  match src with
  | .lit w => b = w
  | .bufOut => p.bufOut = some b
  | .bufOutSlice a z => ∃ w, p.bufOut = some w ∧ isSlice w a z b
  | .slice w a z => isSlice w a z b
  | .payload w => ∃ len, p.hdrOut.len = some len ∧ isSlice w 9 (9 + len.toNat) b

/-- A source reads a response register holding `⊥` (R31). -/
def BufSource.bottom (src : BufSource) (p : Response) : Bool :=
  match src with
  | .lit _ => false
  | .bufOut => p.bufOut.isNone
  | .bufOutSlice _ _ => p.bufOut.isNone
  | .slice _ _ _ => false
  | .payload _ => p.hdrOut.len.isNone

/-! ### What a stop leaves, and the invariant -/

/-- The state a fault leaves (R170). -/
def Fault.after : Fault → State
  | .unwrittenRequest s => s
  | .illegalCommand s => s
  | .precondition _ s => s
  | .illegalOperand s => s

/-- The same outcome, with every state it holds changed by `g`. -/
def mapOut (g : State → State) : Out → Out
  | .next t => .next (g t)
  | .fault (.unwrittenRequest t) => .fault (.unwrittenRequest (g t))
  | .fault (.illegalCommand t) => .fault (.illegalCommand (g t))
  | .fault (.precondition w t) => .fault (.precondition w (g t))
  | .fault (.illegalOperand t) => .fault (.illegalOperand (g t))
  | .refused (.capacity t) => .refused (.capacity (g t))
  | .refused r => .refused r

/-- A response register holds a value, not `⊥` (R31). -/
def Response.holds (p : Response) (r : RespReg) : Bool := (readResp r p).isSome

/-- Every response register holds `⊥` (R30). -/
def Response.allBottom (p : Response) : Bool := decide (p = {})

/-- A setting as the unit writes it: kind 1 to 6, and 0 or 1 for EnablePush (R23, R29). -/
def Setting.decoded (e : Setting) : Bool :=
  knownSetting e.kind.toNat && (decide (e.kind ≠ 2#16) || decide (e.val = 0#32) || decide (e.val = 1#32))

/-- Where a response registers hold a value, it is one the unit writes: `STATUS` 0x00 to 0x06 (R34), buffers and lists within capacity
(R23, R51), decoded settings (R29). -/
def Response.valuesOk (c : Config) (p : Response) : Bool :=
  p.status.all (fun v => decide (v.toNat ≤ 6))
    && p.bufOut.all (Memory.wf c.bufCapacity)
    && p.setOut.all (fun l => decide (l.length ≤ c.setCapacity) && l.all Setting.decoded)
    && p.kindOut.all (fun k => p.valOut.all fun v => Setting.decoded { kind := k, val := v })

/-- No value stands beside an error: with `STATUS` other than OK, every other response register holds `⊥`; with `STATUS` holding `⊥`,
all of them do (R30). -/
def Response.noPartial (p : Response) : Bool :=
  decide (p.status = some (outcomeCode .ok)) || decide (p = { status := p.status })

/-- Buffers and lists the host wrote are within capacity (R22, R50). -/
def Request.withinCapacity (c : Config) (q : Request) : Bool :=
  q.bufIn.all (Memory.wf c.bufCapacity) && q.setIn.all fun l => decide (l.length ≤ c.setCapacity)

/-- The invariant of a unit: its parameters lie in their ranges (R6), requests and responses within capacity, responses only as the
unit writes them. -/
def State.inv (s : State) : Bool :=
  s.cfg.wf && s.req.withinCapacity s.cfg && s.resp.valuesOk s.cfg && s.resp.noPartial

/-- A state that is no bad end of a run: neither mark is set (R170, R175). -/
def State.clean (s : State) : Bool := !s.faulted && !s.refused

end Sys2Proof.Machine
end

