-- ==== Sys2Proof/Certificates/Slice0/Obligations.lean ====
section
/-! DEFINITION. The statements for the provers, one per rule or group of rules of the spec. Nothing is proved here. -/

open Sys2Proof Sys2Proof.Machine

/-! ### The command word -/

/-- The command map (R86): each of its fourteen words, written out bit by bit, decodes to its command. -/
def Obligations.CommandMapWordsDecode : Prop :=
  decodeWord 0b00000001#8 = some .readU24 ∧ decodeWord 0b00000010#8 = some .writeU24 ∧
  decodeWord 0b00000011#8 = some .readU31 ∧ decodeWord 0b00000100#8 = some .writeU31 ∧
  decodeWord 0b00010000#8 = some .hdrEnc ∧ decodeWord 0b00010001#8 = some .hdrDec ∧
  decodeWord 0b00100000#8 = some .setEnc ∧ decodeWord 0b00100001#8 = some .setDec ∧
  decodeWord 0b00110000#8 = some .settingsEnc ∧ decodeWord 0b00110001#8 = some .settingsDec ∧
  decodeWord 0b01000000#8 = some .headersEnc ∧ decodeWord 0b01000001#8 = some .headersDec ∧
  decodeWord 0b01010000#8 = some .dataEnc ∧ decodeWord 0b01010001#8 = some .dataDec

/-- Decode and encode agree, in both directions: every command's word decodes to it whatever follows, and a word that decodes is the
command's word (R86). -/
def Obligations.CommandWordsRoundTrip : Prop :=
  (∀ (i : Instr) (rest : Bytes), i.wf → decode (encode i ++ rest) = .ok (i, rest)) ∧
  (∀ (w : Byte) (i : Instr), decodeWord w = some i → encodeWord i = w)

/-- A step runs the decoded command: when the host's next move writes a word that decodes to `i`, the step is `exec i` on the state
with that word in `CMD` and the move done (R20, R85). The script of moves is the model's choice (log entry 3). -/
def Obligations.StepRunsIssuedCommand : Prop :=
  ∀ (s : State) (n : Nat) (rest : List HostMove) (i : Instr),
    s.script = .cmd n :: rest → decodeWord (BitVec.ofNat 8 n) = some i → i.wf →
    Sys2Proof.Machine.step s =
      Sys2Proof.Machine.exec i { s with script := rest, req := { s.req with cmd := some (BitVec.ofNat 8 n) } }

/-- A word that is no command's faults ILLEGAL_COMMAND, and nothing is written but `FAULTED` (R87, R172). The host's own write of `CMD`
and its move being done are the host's. That the response registers keep their values is the model's reading of R172 (log entry 6). -/
def Obligations.IllegalWordFaults : Prop :=
  ∀ (s : State) (n : Nat) (rest : List HostMove),
    s.script = .cmd n :: rest → (∀ i : Instr, encodeWord i ≠ BitVec.ofNat 8 n) →
    Sys2Proof.Machine.step s =
      .fault (.illegalCommand
        { s with script := rest, req := { s.req with cmd := some (BitVec.ofNat 8 n) }, faulted := true })

/-! ### The integer primitives -/

/-- `READ_U24` (R100). -/
def Obligations.ReadU24ReadsThreeBytes : Prop :=
  ∀ (s : State) (b : Bytes), s.req.bufIn = some b →
    (b.length < 3 →
      Sys2Proof.Machine.exec .readU24 s = .fault (.precondition .readU24Short { s with resp := {}, faulted := true })) ∧
    (∀ (b0 b1 b2 : Byte) (rest : Bytes), b = b0 :: b1 :: b2 :: rest →
      Sys2Proof.Machine.exec .readU24 s =
        .next { s with resp := { status := some 0x00#8, valOut := some (0#8 ++ b0 ++ b1 ++ b2) } })

/-- `WRITE_U24` (R101). The length is tested before the value is read. -/
def Obligations.WriteU24ReplacesThreeBytes : Prop :=
  ∀ (s : State) (b : Bytes), s.req.bufIn = some b →
    (b.length < 3 →
      Sys2Proof.Machine.exec .writeU24 s = .fault (.precondition .writeU24Short { s with resp := {}, faulted := true })) ∧
    (∀ v : Word, 3 ≤ b.length → s.req.valIn = some v → 2 ^ 24 ≤ v.toNat →
      Sys2Proof.Machine.exec .writeU24 s = .fault (.precondition .writeU24Wide { s with resp := {}, faulted := true })) ∧
    (∀ (v : Word) (b0 b1 b2 : Byte) (rest : Bytes), b = b0 :: b1 :: b2 :: rest → s.req.valIn = some v → v.toNat < 2 ^ 24 →
      Sys2Proof.Machine.exec .writeU24 s =
        .next { s with resp := { status := some 0x00#8
                                 bufOut := some ([v.extractLsb' 16 8, v.extractLsb' 8 8, v.extractLsb' 0 8] ++ rest) } })

/-- `READ_U31` (R102). -/
def Obligations.ReadU31ClearsTheTopBit : Prop :=
  ∀ (s : State) (b : Bytes), s.req.bufIn = some b →
    (b.length < 4 →
      Sys2Proof.Machine.exec .readU31 s = .fault (.precondition .readU31Short { s with resp := {}, faulted := true })) ∧
    (∀ (b0 b1 b2 b3 : Byte) (rest : Bytes), b = b0 :: b1 :: b2 :: b3 :: rest →
      Sys2Proof.Machine.exec .readU31 s =
        .next { s with resp := { status := some 0x00#8, valOut := some ((b0 ++ b1 ++ b2 ++ b3) &&& 0x7FFFFFFF#32) } })

/-- `WRITE_U31` (R103): no value faults, the top bit is written 0. -/
def Obligations.WriteU31ClearsTheTopBit : Prop :=
  ∀ (s : State) (b : Bytes), s.req.bufIn = some b →
    (b.length < 4 →
      Sys2Proof.Machine.exec .writeU31 s = .fault (.precondition .writeU31Short { s with resp := {}, faulted := true })) ∧
    (∀ (v : Word) (b0 b1 b2 b3 : Byte) (rest : Bytes), b = b0 :: b1 :: b2 :: b3 :: rest → s.req.valIn = some v →
      Sys2Proof.Machine.exec .writeU31 s =
        .next { s with resp := { status := some 0x00#8, bufOut := some (wireSid v ++ rest) } })

/-- The arithmetic laws of the primitives (R104): what they return lies in range, and the mask is the remainder by 2^31. -/
def Obligations.PrimitiveValuesStayInRange : Prop :=
  (∀ (s t : State) (v : Word), Sys2Proof.Machine.exec .readU24 s = .next t → t.resp.valOut = some v → v.toNat < 2 ^ 24) ∧
  (∀ (s t : State) (v : Word), Sys2Proof.Machine.exec .readU31 s = .next t → t.resp.valOut = some v → v.toNat < 2 ^ 31) ∧
  (∀ (s t : State) (b : Bytes) (v : Word), s.req.bufIn = some b → Sys2Proof.Machine.exec .readU31 s = .next t →
    t.resp.valOut = some v → v.toNat = memRead b 0 4 % 2 ^ 31) ∧
  (∀ (s t : State) (b : Bytes) (v : Word), s.req.valIn = some v → Sys2Proof.Machine.exec .writeU31 s = .next t →
    t.resp.bufOut = some b → memRead b 0 4 = v.toNat % 2 ^ 31)

/-- Round trips of the primitives (R105): writing a value, then reading the resulting buffer, returns it. -/
def Obligations.IntegerRoundTrips : Prop :=
  (∀ (s : State) (b : Bytes) (v : Word), s.req.bufIn = some b → 3 ≤ b.length → s.req.valIn = some v → v.toNat < 2 ^ 24 →
    ∃ t u, Sys2Proof.Machine.exec .writeU24 s = .next t ∧
      Sys2Proof.Machine.exec .readU24 { t with req := { t.req with bufIn := t.resp.bufOut } } = .next u ∧
      u.resp.valOut = some v) ∧
  (∀ (s : State) (b : Bytes) (v : Word), s.req.bufIn = some b → 4 ≤ b.length → s.req.valIn = some v →
    ∃ t u, Sys2Proof.Machine.exec .writeU31 s = .next t ∧
      Sys2Proof.Machine.exec .readU31 { t with req := { t.req with bufIn := t.resp.bufOut } } = .next u ∧
      u.resp.valOut = some (v &&& 0x7FFFFFFF#32) ∧ (v.toNat < 2 ^ 31 → u.resp.valOut = some v))

/-! ### The header codec -/

/-- `HDR_ENC` (R110, R111): FRAME_TOO_BIG with `STATUS` alone, or the 9 bytes with the stream id truncated. -/
def Obligations.HdrEncWritesNineBytes : Prop :=
  ∀ s : State,
    (∀ len : Word, s.req.hdrIn.len = some len → 2 ^ 24 ≤ len.toNat →
      Sys2Proof.Machine.exec .hdrEnc s = .next { s with resp := { status := some 0x01#8 } }) ∧
    (∀ h : Header, s.req.hdrIn = HeaderReg.of h → h.len.toNat < 2 ^ 24 →
      Sys2Proof.Machine.exec .hdrEnc s = .next { s with resp := { status := some 0x00#8, bufOut := some (wireHeader h) } } ∧
      (wireHeader h).length = 9)

/-- `HDR_DEC` (R112): SHORT_HEADER with `STATUS` alone, or the four fields of the first 9 bytes, the reserved bit dropped. -/
def Obligations.HdrDecReadsNineBytes : Prop :=
  ∀ (s : State) (b : Bytes), s.req.bufIn = some b →
    (b.length < 9 → Sys2Proof.Machine.exec .hdrDec s = .next { s with resp := { status := some 0x02#8 } }) ∧
    (∀ (l0 l1 l2 t f i0 i1 i2 i3 : Byte) (rest : Bytes),
      b = [l0, l1, l2, t, f, i0, i1, i2, i3] ++ rest →
      Sys2Proof.Machine.exec .hdrDec s =
        .next { s with resp := { status := some 0x00#8
                                 hdrOut := HeaderReg.of { len := 0#8 ++ l0 ++ l1 ++ l2, type := t, flags := f
                                                          sid := (i0 ++ i1 ++ i2 ++ i3) &&& 0x7FFFFFFF#32 } } })

/-- Header round trip (R113), in both directions. -/
def Obligations.HeaderRoundTrips : Prop :=
  (∀ (s : State) (h : Header), s.req.hdrIn = HeaderReg.of h → h.len.toNat < 2 ^ 24 →
    ∃ t u, Sys2Proof.Machine.exec .hdrEnc s = .next t ∧ t.resp.status = some 0x00#8 ∧
      Sys2Proof.Machine.exec .hdrDec { t with req := { t.req with bufIn := t.resp.bufOut } } = .next u ∧
      u.resp.status = some 0x00#8 ∧
      u.resp.hdrOut = HeaderReg.of { h with sid := h.sid &&& 0x7FFFFFFF#32 } ∧
      (h.sid.toNat < 2 ^ 31 → u.resp.hdrOut = HeaderReg.of h)) ∧
  (∀ (s : State) (b0 b1 b2 b3 b4 b5 b6 b7 b8 : Byte), s.req.bufIn = some [b0, b1, b2, b3, b4, b5, b6, b7, b8] →
    ∃ t u, Sys2Proof.Machine.exec .hdrDec s = .next t ∧
      Sys2Proof.Machine.exec .hdrEnc { t with req := { t.req with hdrIn := t.resp.hdrOut } } = .next u ∧
      u.resp.bufOut = some [b0, b1, b2, b3, b4, b5 &&& 0x7F#8, b6, b7, b8] ∧
      (b5.msb = false → u.resp.bufOut = s.req.bufIn))

/-- No command's outcome depends on the frame type: with `HDR_IN.TYPE` holding any two values, the same `STATUS`, or the same stop
(R77). -/
def Obligations.FrameTypeIsNeverRefused : Prop :=
  ∀ (i : Instr) (s : State) (a b : Byte),
    let sa := { s with req := { s.req with hdrIn := { s.req.hdrIn with type := some a } } }
    let sb := { s with req := { s.req with hdrIn := { s.req.hdrIn with type := some b } } }
    (∀ t, Sys2Proof.Machine.exec i sa = .next t →
      ∃ u, Sys2Proof.Machine.exec i sb = .next u ∧ u.resp.status = t.resp.status) ∧
    (∀ f, Sys2Proof.Machine.exec i sa = .fault f → ∃ g, Sys2Proof.Machine.exec i sb = .fault g) ∧
    (∀ r, Sys2Proof.Machine.exec i sa = .refused r → ∃ q, Sys2Proof.Machine.exec i sb = .refused q)

/-! ### The setting codec -/

/-- `SET_ENC` (R120). -/
def Obligations.SetEncAppendsOneRecord : Prop :=
  ∀ (s : State) (k : Half), s.req.kindIn = some k →
    (∀ b : Bytes, k = 0#16 → s.req.bufIn = some b →
      Sys2Proof.Machine.exec .setEnc s = .next { s with resp := { status := some 0x00#8, bufOut := some b } }) ∧
    (6 < k.toNat → Sys2Proof.Machine.exec .setEnc s = .fault (.illegalOperand { s with resp := {}, faulted := true })) ∧
    (∀ (v : Word) (b : Bytes), 1 ≤ k.toNat → k.toNat ≤ 6 → s.req.valIn = some v → s.req.bufIn = some b →
      (s.cfg.bufCapacity < b.length + 6 →
        Sys2Proof.Machine.exec .setEnc s = .refused (.capacity { s with resp := {}, refused := true })) ∧
      (b.length + 6 ≤ s.cfg.bufCapacity →
        Sys2Proof.Machine.exec .setEnc s =
          .next { s with resp := { status := some 0x00#8, bufOut := some (b ++ wireSetting { kind := k, val := v }) } }))

/-- `SET_DEC` (R122): INVALID, UNKNOWN, or the first record's kind and value. -/
def Obligations.SetDecReadsOneRecord : Prop :=
  ∀ (s : State) (b : Bytes), s.req.bufIn = some b →
    (b.length < 6 → Sys2Proof.Machine.exec .setDec s = .next { s with resp := { status := some 0x04#8 } }) ∧
    (6 ≤ b.length → settingOfWire (b.take 6) = none →
      Sys2Proof.Machine.exec .setDec s = .next { s with resp := { status := some 0x05#8 } }) ∧
    (∀ e : Setting, 6 ≤ b.length → settingOfWire (b.take 6) = some e →
      Sys2Proof.Machine.exec .setDec s =
        .next { s with resp := { status := some 0x00#8, kindOut := some e.kind, valOut := some e.val } })

/-- Setting round trip (R124), in both directions. -/
def Obligations.SettingRoundTrips : Prop :=
  (∀ (s : State) (k : Half) (v : Word), s.cfg.wf → s.req.bufIn = some [] → s.req.kindIn = some k → s.req.valIn = some v →
    1 ≤ k.toNat → k.toNat ≤ 6 →
    ∃ t u, Sys2Proof.Machine.exec .setEnc s = .next t ∧
      Sys2Proof.Machine.exec .setDec { t with req := { t.req with bufIn := t.resp.bufOut } } = .next u ∧
      u.resp.kindOut = some k ∧
      (k ≠ 2#16 → u.resp.valOut = some v) ∧
      (k = 2#16 → u.resp.valOut = some (if v = 0#32 then 0#32 else 1#32))) ∧
  (∀ (s : State) (k : Half) (v : Word), s.cfg.wf → s.req.bufIn = some (wireHalf k ++ wireWord v) →
    1 ≤ k.toNat → k.toNat ≤ 6 →
    ∃ t u, Sys2Proof.Machine.exec .setDec s = .next t ∧
      Sys2Proof.Machine.exec .setEnc
        { t with req := { t.req with bufIn := some [], kindIn := t.resp.kindOut, valIn := t.resp.valOut } } = .next u ∧
      (k ≠ 2#16 ∨ v = 0#32 → u.resp.bufOut = s.req.bufIn) ∧
      (k = 2#16 → v ≠ 0#32 → u.resp.bufOut = some (wireHalf k ++ wireWord 1#32)))

/-! ### The SETTINGS frame codec -/

/-- `SETTINGS_ENC` (R130): an entry that names no variant faults before the capacity test; else the records of the entries that are
not none, in list order, and the derived header. -/
def Obligations.SettingsEncWritesTheRecords : Prop :=
  ∀ (s : State) (l : List Setting), s.req.setIn = some l →
    ((∃ e ∈ l, 6 < e.kind.toNat) →
      Sys2Proof.Machine.exec .settingsEnc s = .fault (.illegalOperand { s with resp := {}, faulted := true })) ∧
    ((∀ e ∈ l, e.kind.toNat ≤ 6) →
      (s.cfg.bufCapacity < 6 * (realSettings l).length →
        Sys2Proof.Machine.exec .settingsEnc s = .refused (.capacity { s with resp := {}, refused := true })) ∧
      (∀ a : Bool, 6 * (realSettings l).length ≤ s.cfg.bufCapacity → s.req.ackIn = some a →
        Sys2Proof.Machine.exec .settingsEnc s =
          .next { s with resp := { status := some 0x00#8
                                   hdrOut := HeaderReg.of { len := BitVec.ofNat 32 (6 * (realSettings l).length), type := 0x04#8
                                                            flags := if a then 0x01#8 else 0x00#8, sid := 0#32 }
                                   bufOut := some ((realSettings l).flatMap wireSetting) } }))

/-- `SETTINGS_DEC` (R132): SHORT_FRAME, or the known records of the payload in order, the header verbatim and the ack bit. -/
def Obligations.SettingsDecReadsTheRecords : Prop :=
  ∀ (s : State) (b : Bytes), s.req.bufIn = some b →
    (b.length ≠ 0 → b.length % 6 ≠ 0 →
      Sys2Proof.Machine.exec .settingsDec s = .next { s with resp := { status := some 0x03#8 } }) ∧
    (∀ rs : List Bytes, b = rs.flatten → (∀ r ∈ rs, r.length = 6) →
      (s.cfg.setCapacity < (rs.filterMap settingOfWire).length →
        Sys2Proof.Machine.exec .settingsDec s = .refused (.capacity { s with resp := {}, refused := true })) ∧
      (∀ h : Header, (rs.filterMap settingOfWire).length ≤ s.cfg.setCapacity → s.req.hdrIn = HeaderReg.of h →
        Sys2Proof.Machine.exec .settingsDec s =
          .next { s with resp := { status := some 0x00#8, hdrOut := HeaderReg.of h, ackOut := some (h.flags.getLsbD 0)
                                   setOut := some (rs.filterMap settingOfWire) } }))

/-- Ack frames with settings pass through, in both directions (R131). -/
def Obligations.AckFramesWithSettingsPass : Prop :=
  (∀ (s : State) (l : List Setting), s.req.ackIn = some true → s.req.setIn = some l → l ≠ [] → (∀ e ∈ l, e.kind.toNat ≤ 6) →
    6 * (realSettings l).length ≤ s.cfg.bufCapacity →
    ∃ t, Sys2Proof.Machine.exec .settingsEnc s = .next t ∧ t.resp.status = some 0x00#8 ∧
      t.resp.hdrOut.flags = some 0x01#8 ∧ t.resp.bufOut = some ((realSettings l).flatMap wireSetting)) ∧
  (∀ (s : State) (h : Header) (rs : List Bytes), s.req.hdrIn = HeaderReg.of h → h.flags.getLsbD 0 = true →
    s.req.bufIn = some rs.flatten → rs ≠ [] → (∀ r ∈ rs, r.length = 6) →
    (rs.filterMap settingOfWire).length ≤ s.cfg.setCapacity →
    ∃ t, Sys2Proof.Machine.exec .settingsDec s = .next t ∧ t.resp.status = some 0x00#8 ∧
      t.resp.ackOut = some true ∧ t.resp.setOut = some (rs.filterMap settingOfWire))

/-- SETTINGS round trip (R135), for lists within the two capacities. -/
def Obligations.SettingsFrameRoundTrip : Prop :=
  ∀ (s : State) (a : Bool) (l : List Setting),
    s.req.ackIn = some a → s.req.setIn = some l → (∀ e ∈ l, e.decoded = true) →
    6 * l.length ≤ s.cfg.bufCapacity → l.length ≤ s.cfg.setCapacity →
    ∃ t u, Sys2Proof.Machine.exec .settingsEnc s = .next t ∧
      Sys2Proof.Machine.exec .settingsDec
        { t with req := { t.req with hdrIn := t.resp.hdrOut, bufIn := t.resp.bufOut } } = .next u ∧
      u.resp.setOut = some l ∧ u.resp.ackOut = some a

/-! ### The HEADERS and DATA frame codecs -/

/-- `HEADERS_ENC` (R140, R142): NOT_IMPLEMENTED for bit 3 or bit 5, whatever the payload; else the block and the derived header.
That it needs of `HDR_IN` only `FLAGS` and `SID`, even with `LEN` or `TYPE` holding `⊥`, is the model's reading (log entry 7). -/
def Obligations.HeadersEncBuildsTheHeader : Prop :=
  ∀ (s : State) (f : Byte), s.req.hdrIn.flags = some f →
    ((f.getLsbD 3 || f.getLsbD 5) = true →
      Sys2Proof.Machine.exec .headersEnc s = .next { s with resp := { status := some 0x06#8 } }) ∧
    (∀ (es eh : Bool) (b : Bytes) (sid : Word), (f.getLsbD 3 || f.getLsbD 5) = false →
      s.req.esIn = some es → s.req.ehIn = some eh → s.req.bufIn = some b → s.req.hdrIn.sid = some sid →
      Sys2Proof.Machine.exec .headersEnc s =
        .next { s with resp := { status := some 0x00#8
                                 hdrOut := HeaderReg.of { len := BitVec.ofNat 32 b.length, type := 0x01#8
                                                          flags := f ||| (if es then 0x01#8 else 0x00#8) |||
                                                            (if eh then 0x04#8 else 0x00#8)
                                                          sid := sid }
                                 bufOut := some b } })

/-- `HEADERS_DEC` (R143). -/
def Obligations.HeadersDecSplitsTheFrame : Prop :=
  ∀ (s : State) (f : Byte), s.req.hdrIn.flags = some f →
    ((f.getLsbD 3 || f.getLsbD 5) = true →
      Sys2Proof.Machine.exec .headersDec s = .next { s with resp := { status := some 0x06#8 } }) ∧
    (∀ (h : Header) (b : Bytes), (f.getLsbD 3 || f.getLsbD 5) = false → s.req.hdrIn = HeaderReg.of h → s.req.bufIn = some b →
      Sys2Proof.Machine.exec .headersDec s =
        .next { s with resp := { status := some 0x00#8, hdrOut := HeaderReg.of h, esOut := some (f.getLsbD 0)
                                 ehOut := some (f.getLsbD 2), bufOut := some b } })

/-- HEADERS round trip (R145). -/
def Obligations.HeadersFrameRoundTrip : Prop :=
  ∀ (s : State) (h : Header) (es eh : Bool) (b : Bytes),
    s.req.hdrIn = HeaderReg.of h → h.flags &&& 0x28#8 = 0#8 → s.req.esIn = some es → s.req.ehIn = some eh → s.req.bufIn = some b →
    ∃ t u, Sys2Proof.Machine.exec .headersEnc s = .next t ∧
      Sys2Proof.Machine.exec .headersDec
        { t with req := { t.req with hdrIn := t.resp.hdrOut, bufIn := t.resp.bufOut } } = .next u ∧
      u.resp.bufOut = some b ∧ u.resp.esOut = some (es || h.flags.getLsbD 0) ∧ u.resp.ehOut = some (eh || h.flags.getLsbD 2)

/-- `DATA_ENC` (R150, R151): NOT_IMPLEMENTED for bit 3 alone; else the data and the derived header. That it needs of
`HDR_IN` only `FLAGS` and `SID`, even with `LEN` or `TYPE` holding `⊥`, is the model's reading (log entry 7). -/
def Obligations.DataEncBuildsTheHeader : Prop :=
  ∀ (s : State) (f : Byte), s.req.hdrIn.flags = some f →
    (f.getLsbD 3 = true →
      Sys2Proof.Machine.exec .dataEnc s = .next { s with resp := { status := some 0x06#8 } }) ∧
    (∀ (es : Bool) (b : Bytes) (sid : Word), f.getLsbD 3 = false →
      s.req.esIn = some es → s.req.bufIn = some b → s.req.hdrIn.sid = some sid →
      Sys2Proof.Machine.exec .dataEnc s =
        .next { s with resp := { status := some 0x00#8
                                 hdrOut := HeaderReg.of { len := BitVec.ofNat 32 b.length, type := 0x00#8
                                                          flags := f ||| (if es then 0x01#8 else 0x00#8)
                                                          sid := sid }
                                 bufOut := some b } })

/-- `DATA_DEC` (R152, R151). -/
def Obligations.DataDecSplitsTheFrame : Prop :=
  ∀ (s : State) (f : Byte), s.req.hdrIn.flags = some f →
    (f.getLsbD 3 = true →
      Sys2Proof.Machine.exec .dataDec s = .next { s with resp := { status := some 0x06#8 } }) ∧
    (∀ (h : Header) (b : Bytes), f.getLsbD 3 = false → s.req.hdrIn = HeaderReg.of h → s.req.bufIn = some b →
      Sys2Proof.Machine.exec .dataDec s =
        .next { s with resp := { status := some 0x00#8, hdrOut := HeaderReg.of h, esOut := some (f.getLsbD 0), bufOut := some b } })

/-- DATA round trip (R153). -/
def Obligations.DataFrameRoundTrip : Prop :=
  ∀ (s : State) (h : Header) (es : Bool) (b : Bytes),
    s.req.hdrIn = HeaderReg.of h → h.flags &&& 0x08#8 = 0#8 → s.req.esIn = some es → s.req.bufIn = some b →
    ∃ t u, Sys2Proof.Machine.exec .dataEnc s = .next t ∧
      Sys2Proof.Machine.exec .dataDec
        { t with req := { t.req with hdrIn := t.resp.hdrOut, bufIn := t.resp.bufOut } } = .next u ∧
      u.resp.bufOut = some b ∧ u.resp.esOut = some (es || h.flags.getLsbD 0)

/-! ### All commands -/

/-- Every command completes, and exactly when: from a state where its operands hold values and pass its rule's tests, and from no
other, it ends OK, changing response registers alone and leaving a value in exactly the registers of its "writes" column (R24). Which fields of `HDR_IN` the
HEADERS and DATA encoders need is the model's reading (log entry 7). -/
def Obligations.ReadyCommandsComplete : Prop :=
  ∀ (i : Instr) (s : State),
    (ready i s = true →
      ∃ p : Response, Sys2Proof.Machine.exec i s = .next { s with resp := p } ∧ p.status = some 0x00#8 ∧
        ∀ r : RespReg, p.holds r = decide (r ∈ writesOnOk i)) ∧
    (∀ t, Sys2Proof.Machine.exec i s = .next t → t.resp.status = some 0x00#8 → ready i s = true)

/-- The frame of every command: a next state differs from the state before in the response registers alone. No request register, no
byte of `BUF_IN`, no parameter, no mark and none of the host's own fields changes (R22, R56). -/
def Obligations.CommandsWriteResponsesOnly : Prop :=
  ∀ (i : Instr) (s t : State), Sys2Proof.Machine.exec i s = .next t →
    t.req = s.req ∧ t.cfg = s.cfg ∧ t.faulted = s.faulted ∧ t.refused = s.refused ∧ t.script = s.script ∧ t.seen = s.seen ∧
    ∀ (b : Bytes), s.req.bufIn = some b → ∃ c, t.req.bufIn = some c ∧ ∀ a, readByte c a = readByte b a

/-- Every command rewrites the responses, whatever they held (R30): after it `STATUS` holds a code, on any code but OK every other
response register holds `⊥`, on OK exactly those of R24 hold a value; a command that stops leaves all of them `⊥`. -/
def Obligations.CommandsRewriteTheResponses : Prop :=
  ∀ (i : Instr) (s : State),
    (∀ t, Sys2Proof.Machine.exec i s = .next t →
      ∃ c : Byte, t.resp.status = some c ∧
        (c ≠ 0x00#8 → t.resp = { status := some c }) ∧
        (c = 0x00#8 → ∀ r : RespReg, t.resp.holds r = decide (r ∈ writesOnOk i))) ∧
    (∀ f, Sys2Proof.Machine.exec i s = .fault f → f.after.resp = {}) ∧
    (∀ u, Sys2Proof.Machine.exec i s = .refused (.capacity u) → u.resp = {})

/-- A command reads only its column: changing any other request register, the old responses or anything of the host's changes nothing
it does (R24, R21). -/
def Obligations.CommandsReadOnlyTheirColumn : Prop :=
  ∀ (i : Instr) (s : State) (q : Request) (p : Response) (moves : List HostMove) (vals : List RegVal),
    (∀ r ∈ readsOf i, Request.agreeOn r s.req q = true) →
    Sys2Proof.Machine.exec i { s with req := q, resp := p, script := moves, seen := vals } =
      mapOut (fun t => { t with req := q, script := moves, seen := vals }) (Sys2Proof.Machine.exec i s)

/-- Where `HDR_IN` holds four values or none, it is read as one operand of four fields (R24): a command with `HDR_IN` in its column that
ends OK had all four to read; and every step but a host write of a single field (log entry 18)
keeps it so. In such states R24 and the model's reading of R171 (log entry 7) agree on HEADERS_ENC
and DATA_ENC. -/
def Obligations.WholeHeadersAreReadWhole : Prop :=
  (∀ (i : Instr) (s t : State), ReqReg.hdrIn ∈ readsOf i → s.req.hdrIn.whole = true → Sys2Proof.Machine.exec i s = .next t →
    t.resp.status = some 0x00#8 → ∃ h : Header, s.req.hdrIn = HeaderReg.of h) ∧
  (∀ s t : State, (∀ m, s.script.head? = some m → m.writesOneField = false) → s.req.hdrIn.whole = true →
    Sys2Proof.Machine.step s = .next t → t.req.hdrIn.whole = true) ∧
  State.reset.req.hdrIn.whole = true

/-- The outcomes each command can produce, and nothing else (R163). -/
def Obligations.CommandOutcomesAreTheListed : Prop :=
  (∀ (i : Instr) (s t : State), Sys2Proof.Machine.exec i s = .next t →
    ∃ c ∈ outcomesOf i, t.resp.status = some (outcomeCode c)) ∧
  (∀ (i : Instr), ∀ c ∈ outcomesOf i, ∃ s t, Sys2Proof.Machine.exec i s = .next t ∧ t.resp.status = some (outcomeCode c))

/-- A command run again on the state it left answers that state (R59). -/
def Obligations.CommandsAreIdempotent : Prop :=
  ∀ (i : Instr) (s t : State), Sys2Proof.Machine.exec i s = .next t → Sys2Proof.Machine.exec i t = .next t

/-- What a fault of a command leaves: every response register `⊥`, `FAULTED` set, all else as before; and no command is the source of
ILLEGAL_COMMAND (R170). That a fault carries the state it leaves is the model's choice (log entry 5). -/
def Obligations.FaultsMarkAndClear : Prop :=
  ∀ (i : Instr) (s : State) (f : Fault), Sys2Proof.Machine.exec i s = .fault f →
    f.after = { s with resp := {}, faulted := true } ∧ ∀ u, f ≠ .illegalCommand u

/-- What a refusal of a command is: CAPACITY, with every response register `⊥`, `REFUSED` set, all else as before (R175). -/
def Obligations.RefusalsMarkAndClear : Prop :=
  ∀ (i : Instr) (s : State) (r : Refusal), Sys2Proof.Machine.exec i s = .refused r →
    r = .capacity { s with resp := {}, refused := true }

/-- UNWRITTEN_REQUEST (R171): a command faults so exactly when it reads a request register holding `⊥` on the path it takes, and such a
register is one of its column; a host read of a response register holding `⊥` is the same fault. Which fields of `HDR_IN` the HEADERS and
DATA encoders read is the model's reading (log entry 7). -/
def Obligations.UnwrittenRequestsFault : Prop :=
  (∀ (i : Instr) (s : State),
    (∃ u, Sys2Proof.Machine.exec i s = .fault (.unwrittenRequest u)) ↔ readsBottom i s = true) ∧
  (∀ (i : Instr) (s : State), readsBottom i s = true → ∃ r ∈ readsOf i, s.req.bottom r = true) ∧
  (∀ (s : State) (r : RespReg) (rest : List HostMove), s.script = .rd r :: rest → s.resp.holds r = false →
    ∃ u, Sys2Proof.Machine.step s = .fault (.unwrittenRequest u) ∧ u.faulted = true)

/-- `SET_ENC` of the none sentinel does not read `VAL_IN`, whether or not it holds a value (R171). -/
def Obligations.NoneSentinelReadsNoValue : Prop :=
  ∀ (s : State) (b : Bytes), s.req.kindIn = some 0#16 → s.req.bufIn = some b → s.req.valIn = none →
    Sys2Proof.Machine.exec .setEnc s = .next { s with resp := { status := some 0x00#8, bufOut := some b } }

/-- PRECONDITION is raised exactly by an integer primitive with a buffer shorter than its field, or by `WRITE_U24` with a value of
2^24 or more (R173). -/
def Obligations.PreconditionFaultsExactly : Prop :=
  ∀ (i : Instr) (s : State),
    (∃ w u, Sys2Proof.Machine.exec i s = .fault (.precondition w u)) ↔
      ((i = .readU24 ∨ i = .writeU24) ∧ ∃ b, s.req.bufIn = some b ∧ b.length < 3) ∨
      ((i = .readU31 ∨ i = .writeU31) ∧ ∃ b, s.req.bufIn = some b ∧ b.length < 4) ∨
      (i = .writeU24 ∧ ∃ b v, s.req.bufIn = some b ∧ 3 ≤ b.length ∧ s.req.valIn = some v ∧ 2 ^ 24 ≤ v.toNat)

/-- ILLEGAL_OPERAND is raised exactly by `SET_ENC` with a kind of 7 or more and by `SETTINGS_ENC` with any such entry (R174). -/
def Obligations.IllegalOperandFaultsExactly : Prop :=
  ∀ (i : Instr) (s : State),
    (∃ u, Sys2Proof.Machine.exec i s = .fault (.illegalOperand u)) ↔
      (i = .setEnc ∧ ∃ k, s.req.kindIn = some k ∧ 7 ≤ k.toNat) ∨
      (i = .settingsEnc ∧ ∃ l, s.req.setIn = some l ∧ ∃ e ∈ l, 7 ≤ e.kind.toNat)

/-- CAPACITY is raised exactly by `SET_ENC` and `SETTINGS_ENC` when the output buffer would exceed `BUF_CAPACITY`, and by `SETTINGS_DEC`
when the output list would exceed `SET_CAPACITY` (R176). -/
def Obligations.CapacityRefusesExactly : Prop :=
  ∀ (i : Instr) (s : State),
    (∃ r, Sys2Proof.Machine.exec i s = .refused r) ↔
      (i = .setEnc ∧ ∃ k v b, s.req.kindIn = some k ∧ 1 ≤ k.toNat ∧ k.toNat ≤ 6 ∧ s.req.valIn = some v ∧ s.req.bufIn = some b ∧
        s.cfg.bufCapacity < b.length + 6) ∨
      (i = .settingsEnc ∧ ∃ l, s.req.setIn = some l ∧ (∀ e ∈ l, e.kind.toNat ≤ 6) ∧
        s.cfg.bufCapacity < 6 * (realSettings l).length) ∨
      (i = .settingsDec ∧ ∃ rs : List Bytes, s.req.bufIn = some rs.flatten ∧ (∀ r ∈ rs, r.length = 6) ∧
        s.cfg.setCapacity < (rs.filterMap settingOfWire).length)

/-! ### Memory -/

/-- A 4-byte value written into a buffer stands big-endian, most significant byte at the lowest address; a read gives it back, the
other bytes and the length stay (R53, R54). -/
def Obligations.BufferWritesAreBigEndian : Prop :=
  ∀ (b : Bytes) (a : Nat) (v : Word), a + 4 ≤ b.length →
    readByte (memWrite b a 4 v.toNat) a = some (v.extractLsb' 24 8) ∧
    readByte (memWrite b a 4 v.toNat) (a + 1) = some (v.extractLsb' 16 8) ∧
    readByte (memWrite b a 4 v.toNat) (a + 2) = some (v.extractLsb' 8 8) ∧
    readByte (memWrite b a 4 v.toNat) (a + 3) = some (v.extractLsb' 0 8) ∧
    memRead (memWrite b a 4 v.toNat) a 4 = v.toNat ∧
    (memWrite b a 4 v.toNat).length = b.length ∧
    ∀ i, i < a ∨ a + 4 ≤ i → readByte (memWrite b a 4 v.toNat) i = readByte b i

/-! ### The host's side, reset and the marks -/

/-- The state after reset: every register `⊥`, both marks 0; and a reset from any state gives the same (R190, R37). -/
def Obligations.ResetLeavesEveryRegisterBottom : Prop :=
  (State.reset.req = {} ∧ State.reset.resp = {} ∧ State.reset.faulted = false ∧ State.reset.refused = false) ∧
  ∀ (s : State) (rest : List HostMove), s.script = .reset :: rest →
    ∃ t, Sys2Proof.Machine.step s = .next t ∧ t.req = {} ∧ t.resp = {} ∧ t.faulted = false ∧ t.refused = false

/-- From reset, with nothing written, every command faults UNWRITTEN_REQUEST as the first one issued, and leaves `FAULTED` set and every
response register `⊥` (R31, R190). -/
def Obligations.CommandsFaultRightAfterReset : Prop :=
  ∀ i : Instr, ∃ u, Sys2Proof.Machine.step (State.reset.withFetchWord 8 (encodeWord i).toNat) = .fault (.unwrittenRequest u) ∧
    u.faulted = true ∧ u.resp = {}

/-- A number the host writes is taken modulo 2^width of its register, list entries included (R26), and every other register, and the
other three fields of `HDR_IN`, keep what they held (R22). A list longer than `SET_CAPACITY` is no move (R176; log entry 11). -/
def Obligations.HostWritesAreModuloWidth : Prop :=
  ∀ (s : State) (rest : List HostMove) (v : Nat),
    (s.script = .wr (.hdrInLen v) :: rest → ∃ x : Word, x.toNat = v % 2 ^ 32 ∧
      Sys2Proof.Machine.step s = s.afterWrite rest { s.req with hdrIn := { s.req.hdrIn with len := some x } }) ∧
    (s.script = .wr (.hdrInType v) :: rest → ∃ x : Byte, x.toNat = v % 2 ^ 8 ∧
      Sys2Proof.Machine.step s = s.afterWrite rest { s.req with hdrIn := { s.req.hdrIn with type := some x } }) ∧
    (s.script = .wr (.hdrInFlags v) :: rest → ∃ x : Byte, x.toNat = v % 2 ^ 8 ∧
      Sys2Proof.Machine.step s = s.afterWrite rest { s.req with hdrIn := { s.req.hdrIn with flags := some x } }) ∧
    (s.script = .wr (.hdrInSid v) :: rest → ∃ x : Word, x.toNat = v % 2 ^ 32 ∧
      Sys2Proof.Machine.step s = s.afterWrite rest { s.req with hdrIn := { s.req.hdrIn with sid := some x } }) ∧
    (s.script = .wr (.valIn v) :: rest → ∃ x : Word, x.toNat = v % 2 ^ 32 ∧
      Sys2Proof.Machine.step s = s.afterWrite rest { s.req with valIn := some x }) ∧
    (s.script = .wr (.kindIn v) :: rest → ∃ x : Half, x.toNat = v % 2 ^ 16 ∧
      Sys2Proof.Machine.step s = s.afterWrite rest { s.req with kindIn := some x }) ∧
    (s.script = .wr (.ackIn v) :: rest → ∃ x : Bool, x.toNat = v % 2 ∧
      Sys2Proof.Machine.step s = s.afterWrite rest { s.req with ackIn := some x }) ∧
    (s.script = .wr (.esIn v) :: rest → ∃ x : Bool, x.toNat = v % 2 ∧
      Sys2Proof.Machine.step s = s.afterWrite rest { s.req with esIn := some x }) ∧
    (s.script = .wr (.ehIn v) :: rest → ∃ x : Bool, x.toNat = v % 2 ∧
      Sys2Proof.Machine.step s = s.afterWrite rest { s.req with ehIn := some x }) ∧
    (∀ h : HeaderLit, s.script = .wr (.hdrIn h) :: rest →
      ∃ x : Header, x.len.toNat = h.len % 2 ^ 32 ∧ x.type.toNat = h.type % 2 ^ 8 ∧ x.flags.toNat = h.flags % 2 ^ 8 ∧
        x.sid.toNat = h.sid % 2 ^ 32 ∧ Sys2Proof.Machine.step s = s.afterWrite rest { s.req with hdrIn := HeaderReg.of x }) ∧
    (∀ es : List (Nat × Nat), s.script = .wr (.setIn es) :: rest →
      (es.length ≤ s.cfg.setCapacity →
        ∃ l : List Setting, l.map (fun e => (e.kind.toNat, e.val.toNat)) = es.map (fun p => (p.1 % 2 ^ 16, p.2 % 2 ^ 32)) ∧
          Sys2Proof.Machine.step s = s.afterWrite rest { s.req with setIn := some l }) ∧
      (s.cfg.setCapacity < es.length → Sys2Proof.Machine.step s = .refused (.noSuchMove (.wr (.setIn es)))))

/-- `WR BUF_IN = …` from each of its sources (R91, R92, R194): exactly the bytes the source names stand in `BUF_IN`, and nothing else
changes, when they fit `BUF_CAPACITY`. Bytes that do not fit, and a slice past the end, are no move of the host (R176, R92); that a
slice with its ends swapped is none is the model's choice (log entry 11).
A source that is a response register holding `⊥` is a host read of it (R31; log entry 18). -/
def Obligations.HostWritesPlaceTheSourcesBytes : Prop :=
  ∀ (s : State) (rest : List HostMove) (src : BufSource), s.script = .wr (.bufIn src) :: rest →
    (∀ b : Bytes, src.names s.resp b →
      (b.length ≤ s.cfg.bufCapacity →
        Sys2Proof.Machine.step s = .next { s with script := rest, req := { s.req with bufIn := some b } }) ∧
      (s.cfg.bufCapacity < b.length → Sys2Proof.Machine.step s = .refused (.noSuchMove (.wr (.bufIn src))))) ∧
    (src.bottom s.resp = true →
      Sys2Proof.Machine.step s = .fault (.unwrittenRequest { s with script := rest, faulted := true })) ∧
    (src.bottom s.resp = false → (∀ b : Bytes, ¬ src.names s.resp b) →
      Sys2Proof.Machine.step s = .refused (.noSuchMove (.wr (.bufIn src))))

/-- Outputs never alias inputs (R195): a host write changes no response register, and a command never writes `BUF_IN`. -/
def Obligations.OutputsNeverAliasInputs : Prop :=
  (∀ (s t : State) (x : ReqWrite) (rest : List HostMove), s.script = .wr x :: rest → Sys2Proof.Machine.step s = .next t →
    t.resp = s.resp) ∧
  (∀ (s t : State) (n : Nat) (rest : List HostMove), s.script = .cmd n :: rest → Sys2Proof.Machine.step s = .next t →
    t.req.bufIn = s.req.bufIn)

/-- A host read of a response register (R31): `⊥` is UNWRITTEN_REQUEST charged to the host, with nothing changed but `FAULTED`; a value
is read and changes no register. -/
def Obligations.HostReadsOfBottomFault : Prop :=
  ∀ (s : State) (r : RespReg) (rest : List HostMove), s.script = .rd r :: rest →
    (s.resp.holds r = false →
      Sys2Proof.Machine.step s = .fault (.unwrittenRequest { s with script := rest, faulted := true })) ∧
    (s.resp.holds r = true →
      ∃ v, readResp r s.resp = some v ∧
        Sys2Proof.Machine.step s = .next { s with script := rest, seen := v :: s.seen })

/-- Forwarding copies the four response header fields into the request header and nothing else (R91); with one of them `⊥` it is a
host read of `⊥` (R31). -/
def Obligations.ForwardCopiesTheHeader : Prop :=
  ∀ (s : State) (rest : List HostMove), s.script = .fwd :: rest →
    (∀ h : Header, s.resp.hdrOut = HeaderReg.of h →
      Sys2Proof.Machine.step s = .next { s with script := rest, req := { s.req with hdrIn := HeaderReg.of h } }) ∧
    (s.resp.hdrOut.value = none →
      Sys2Proof.Machine.step s = .fault (.unwrittenRequest { s with script := rest, faulted := true }))

/-- The marks (R33): set by every model fault and by every CAPACITY refusal; no step but a reset changes them. -/
def Obligations.MarksStick : Prop :=
  (∀ (s : State) (f : Fault), Sys2Proof.Machine.step s = .fault f → f.after.faulted = true) ∧
  (∀ (s u : State), Sys2Proof.Machine.step s = .refused (.capacity u) → u.refused = true) ∧
  (∀ (s t : State), s.script.head? ≠ some .reset → Sys2Proof.Machine.step s = .next t →
    t.faulted = s.faulted ∧ t.refused = s.refused) ∧
  (∀ (s t : State), s.script.head? = some .reset → Sys2Proof.Machine.step s = .next t → t.faulted = false ∧ t.refused = false)

/-- Only the unit writes response registers, and only during a command (R23): a step that is no command and no reset leaves them. -/
def Obligations.OnlyCommandsWriteResponses : Prop :=
  ∀ (s t : State), (∀ n, s.script.head? ≠ some (.cmd n)) → s.script.head? ≠ some .reset →
    Sys2Proof.Machine.step s = .next t → t.resp = s.resp

/-- `SEND` (R92): when the frame encoder ends OK with a header that fits the wire, the four moves end, and the wire bytes are the
header's 9 bytes followed by the payload. -/
def Obligations.SendPutsHeaderBeforePayload : Prop :=
  ∀ (f : FrameKind) (s t : State) (h : Header) (p : Bytes),
    Sys2Proof.Machine.exec (frameEnc f) s = .next t → t.resp.hdrOut = HeaderReg.of h → t.resp.bufOut = some p →
    h.len.toNat < 2 ^ 24 →
    ∃ u, Sys2Proof.core.run 4 { s with script := sendMoves f } = .next u ∧ wireBytes u = some (wireHeader h ++ p)

/-- `RECV` (R92): from wire bytes that hold a header and the payload it delimits, the first four moves end with that header (its reserved
bit cleared) in `HDR_IN` and that payload in `BUF_IN`, and the frame decoder is the next move. -/
def Obligations.RecvDecodesTheDelimitedPayload : Prop :=
  ∀ (f : FrameKind) (s : State) (h : Header) (p rest : Bytes),
    h.len.toNat < 2 ^ 24 → p.length = h.len.toNat → 9 ≤ s.cfg.bufCapacity → p.length ≤ s.cfg.bufCapacity →
    ∃ t, Sys2Proof.core.run 4 { s with script := recvMoves f (wireHeader h ++ p ++ rest) } = .next t ∧
      t.req.hdrIn = HeaderReg.of { h with sid := h.sid &&& 0x7FFFFFFF#32 } ∧ t.req.bufIn = some p ∧
      t.script = [issue (frameDec f)]

/-! ### Invariants -/

/-- Every step keeps the invariant of a unit: the buffers and lists stay within capacity, `STATUS` is 0x00 to 0x06, decoded settings
are what the unit writes, and no value stands beside an error (R23, R30, R34, R50, R51). -/
def Obligations.StepsKeepTheInvariant : Prop :=
  ∀ s t : State, s.inv = true → Sys2Proof.Machine.step s = .next t → t.inv = true

/-- The invariant holds right after reset, whatever the parameters are. -/
def Obligations.ResetMeetsTheInvariant : Prop :=
  State.reset.inv = true ∧ State.reset.clean = true

/-- The state a stop leaves meets the invariant too: a command's fault or refusal, and any fault or refusal of a step (an illegal
command word, a host read or a forward of `⊥`). A move a host does not have leaves no state (log entry 11). -/
def Obligations.StopsKeepTheInvariant : Prop :=
  ∀ s : State, s.inv = true →
    (∀ (i : Instr) (f : Fault), Sys2Proof.Machine.exec i s = .fault f → f.after.inv = true) ∧
    (∀ (i : Instr) (u : State), Sys2Proof.Machine.exec i s = .refused (.capacity u) → u.inv = true) ∧
    (∀ f : Fault, Sys2Proof.Machine.step s = .fault f → f.after.inv = true) ∧
    (∀ u : State, Sys2Proof.Machine.step s = .refused (.capacity u) → u.inv = true)

/-- The header register `HDR_OUT.LEN` of an encoded frame is the payload's exact byte count, in every state that meets the invariant
(R71, R83). -/
def Obligations.EncodedLengthIsThePayloads : Prop :=
  ∀ (f : FrameKind) (s t : State) (len : Word) (p : Bytes), s.inv = true →
    Sys2Proof.Machine.exec (frameEnc f) s = .next t → t.resp.hdrOut.len = some len → t.resp.bufOut = some p →
    len.toNat = p.length

/-! ### Several units -/

/-- Units share nothing (R184, R60): a step of one unit leaves every other unit as it was, and the steps of two units commute. -/
def Obligations.UnitsDoNotInterfere : Prop :=
  (∀ (y z : System) (k : Nat), System.step k y = .next z →
    z.units.length = y.units.length ∧ ∀ j, j ≠ k → z.units[j]? = y.units[j]?) ∧
  (∀ (y z w : System) (j k : Nat), j ≠ k → System.step j y = .next z → System.step k z = .next w →
    ∃ x, System.step k y = .next x ∧ System.step j x = .next w)
end

