-- ==== Sys2Proof/Laws/State.lean ====
section
/-! SUPPORT. Beside State: each named update of the state, field by field, so that no proof unfolds a record update. -/

namespace Sys2Proof

/-- The parameter ranges of R6 as inequalities. -/
theorem Config.wf_iff (c : Config) : c.wf = true ↔ 9 ≤ c.bufCapacity ∧ c.bufCapacity ≤ 2 ^ 32 - 1 ∧ 1 ≤ c.setCapacity := by
  simp only [Config.wf, Bool.and_eq_true, decide_eq_true_eq, and_assoc]

/-- The parameters of the unit at hand lie in the ranges of R6, whatever they are. -/
theorem Config.given_wf : Config.given.wf = true := by
  have := Config.bufOpen.isLt
  rw [Config.wf_iff]
  simp only [Config.given]
  omega

end Sys2Proof

namespace Sys2Proof.Machine

@[simp] theorem State.beginCommand_cfg (s : State) : s.beginCommand.cfg = s.cfg := rfl
@[simp] theorem State.beginCommand_req (s : State) : s.beginCommand.req = s.req := rfl
@[simp] theorem State.beginCommand_resp (s : State) : s.beginCommand.resp = {} := rfl
@[simp] theorem State.beginCommand_faulted (s : State) : s.beginCommand.faulted = s.faulted := rfl
@[simp] theorem State.beginCommand_refused (s : State) : s.beginCommand.refused = s.refused := rfl
@[simp] theorem State.beginCommand_script (s : State) : s.beginCommand.script = s.script := rfl
@[simp] theorem State.beginCommand_seen (s : State) : s.beginCommand.seen = s.seen := rfl

@[simp] theorem State.withCmd_cfg (s : State) (w : Byte) : (s.withCmd w).cfg = s.cfg := rfl
@[simp] theorem State.withCmd_req (s : State) (w : Byte) : (s.withCmd w).req = { s.req with cmd := some w } := rfl
@[simp] theorem State.withCmd_resp (s : State) (w : Byte) : (s.withCmd w).resp = s.resp := rfl
@[simp] theorem State.withCmd_faulted (s : State) (w : Byte) : (s.withCmd w).faulted = s.faulted := rfl
@[simp] theorem State.withCmd_refused (s : State) (w : Byte) : (s.withCmd w).refused = s.refused := rfl
@[simp] theorem State.withCmd_script (s : State) (w : Byte) : (s.withCmd w).script = s.script := rfl
@[simp] theorem State.withCmd_seen (s : State) (w : Byte) : (s.withCmd w).seen = s.seen := rfl

@[simp] theorem State.afterReset_cfg (s : State) : s.afterReset.cfg = s.cfg := rfl
@[simp] theorem State.afterReset_req (s : State) : s.afterReset.req = {} := rfl
@[simp] theorem State.afterReset_resp (s : State) : s.afterReset.resp = {} := rfl
@[simp] theorem State.afterReset_faulted (s : State) : s.afterReset.faulted = false := rfl
@[simp] theorem State.afterReset_refused (s : State) : s.afterReset.refused = false := rfl
@[simp] theorem State.afterReset_script (s : State) : s.afterReset.script = s.script := rfl
@[simp] theorem State.afterReset_seen (s : State) : s.afterReset.seen = s.seen := rfl

@[simp] theorem State.reset_cfg : State.reset.cfg = Config.given := rfl
@[simp] theorem State.reset_req : State.reset.req = {} := rfl
@[simp] theorem State.reset_resp : State.reset.resp = {} := rfl
@[simp] theorem State.reset_script : State.reset.script = [] := rfl

@[simp] theorem State.withFetchWord_script (s : State) (n w : Nat) :
    (s.withFetchWord n w).script = .cmd (w % 2 ^ n) :: s.script := rfl
@[simp] theorem State.withFetchWord_req (s : State) (n w : Nat) : (s.withFetchWord n w).req = s.req := rfl
@[simp] theorem State.withFetchWord_resp (s : State) (n w : Nat) : (s.withFetchWord n w).resp = s.resp := rfl
@[simp] theorem State.withFetchWord_cfg (s : State) (n w : Nat) : (s.withFetchWord n w).cfg = s.cfg := rfl

@[simp] theorem HeaderReg.of_len (h : Header) : (HeaderReg.of h).len = some h.len := rfl
@[simp] theorem HeaderReg.of_type (h : Header) : (HeaderReg.of h).type = some h.type := rfl
@[simp] theorem HeaderReg.of_flags (h : Header) : (HeaderReg.of h).flags = some h.flags := rfl
@[simp] theorem HeaderReg.of_sid (h : Header) : (HeaderReg.of h).sid = some h.sid := rfl

end Sys2Proof.Machine
end

