-- ==== Sys2Proof/Laws/Ops.lean ====
section
/-! SUPPORT. One spec lemma per shared operation: what a register read, the end of a command and the memory primitives can do. -/

namespace Sys2Proof.Machine

/-! ### Reading operands -/

@[simp] theorem need_some {α : Type} (v : α) (s : State) (k : α → Out) : need (some v) s k = k v := rfl

@[simp] theorem need_none {α : Type} (s : State) (k : α → Out) :
    need none s k = .fault (.unwrittenRequest { s with faulted := true }) := rfl

theorem need_next {α : Type} {r : Option α} {s t : State} {k : α → Out} :
    need r s k = .next t ↔ ∃ v, r = some v ∧ k v = .next t := by
  cases r <;> simp

theorem need_refused {α : Type} {r : Option α} {s : State} {k : α → Out} {x : Refusal} :
    need r s k = .refused x ↔ ∃ v, r = some v ∧ k v = .refused x := by
  cases r <;> simp

theorem need_fault {α : Type} {r : Option α} {s : State} {k : α → Out} {f : Fault} :
    need r s k = .fault f ↔
      (r = none ∧ f = .unwrittenRequest { s with faulted := true }) ∨ ∃ v, r = some v ∧ k v = .fault f := by
  cases r <;> simp [eq_comm]

/-- Four header registers that hold a header are exactly the registers of that header. -/
theorem HeaderReg.value_eq_some {r : HeaderReg} {h : Header} : r.value = some h ↔ r = HeaderReg.of h := by
  obtain ⟨len, type, flags, sid⟩ := r
  cases len <;> cases type <;> cases flags <;> cases sid <;> cases h <;> simp [HeaderReg.value, HeaderReg.of]

@[simp] theorem HeaderReg.value_of (h : Header) : (HeaderReg.of h).value = some h :=
  HeaderReg.value_eq_some.mpr rfl

/-- Reading a header is reading it as one value. -/
theorem needHeader_eq (r : HeaderReg) (s : State) (k : Header → Out) : needHeader r s k = need r.value s k := by
  obtain ⟨len, type, flags, sid⟩ := r
  cases len <;> cases type <;> cases flags <;> cases sid <;> rfl

@[simp] theorem needHeader_of (h : Header) (s : State) (k : Header → Out) : needHeader (HeaderReg.of h) s k = k h := by
  simp [needHeader_eq]

/-! ### How a command ends -/

theorem finish_next {s t : State} {r : Response} :
    finish s r = .next t ↔ t = { s with resp := { r with status := some 0x00#8 } } := by
  simp [finish, outcomeCode, eq_comm]

theorem raiseOutcome_next {c : CodecOutcome} {s t : State} :
    raiseOutcome c s = .next t ↔ t = { s with resp := { status := some (outcomeCode c) } } := by
  simp [raiseOutcome, eq_comm]

theorem takeFault_fault {g : State → Fault} {s : State} {f : Fault} :
    takeFault g s = .fault f ↔ f = g { s with faulted := true } := by
  simp [takeFault, eq_comm]

theorem takeRefusal_refused {g : State → Refusal} {s : State} {r : Refusal} :
    takeRefusal g s = .refused r ↔ r = g { s with refused := true } := by
  simp [takeRefusal, eq_comm]

/-! ### The memory primitives -/

@[simp] theorem beBytes_length (v n : Nat) : (beBytes v n).length = n := by
  induction n with
  | zero => rfl
  | succ n ih => simp [beBytes, ih]

theorem beValue_append (a b : Bytes) : beValue (a ++ b) = beValue a * 256 ^ b.length + beValue b := by
  induction a with
  | nil => simp [beValue]
  | cons x a ih => simp only [List.cons_append, beValue, ih, List.length_append, pow_add]; ring

theorem beValue_lt (b : Bytes) : beValue b < 256 ^ b.length := by
  induction b with
  | nil => simp [beValue]
  | cons x b ih =>
    have hx : x.toNat < 256 := x.isLt
    have : x.toNat * 256 ^ b.length + 256 ^ b.length ≤ 256 * 256 ^ b.length := by
      rw [← Nat.succ_mul]; exact Nat.mul_le_mul_right _ hx
    simp only [beValue, List.length_cons, pow_succ']
    omega

/-- `MemRead` of what `BE` wrote is the value modulo 2^(8n) (R9). -/
theorem beValue_beBytes (v n : Nat) : beValue (beBytes v n) = v % 256 ^ n := by
  induction n with
  | zero => simp [beBytes, beValue, Nat.mod_one]
  | succ n ih =>
    have h2 : (2 : Nat) ^ (8 * n) = 256 ^ n := by rw [pow_mul]; norm_num
    simp only [beBytes, beValue, ih, beBytes_length, BitVec.toNat_ofNat, Nat.shiftRight_eq_div_pow, h2]
    rw [show (2 : Nat) ^ 8 = 256 by norm_num, pow_succ 256 n, Nat.mod_mul]
    ring

/-- `BE` of what `MemRead` read is the bytes read (R9). -/
theorem beBytes_beValue (b : Bytes) : beBytes (beValue b) b.length = b := by
  induction b with
  | nil => rfl
  | cons x b ih =>
    have hlt := beValue_lt b
    have hx : x.toNat < 256 := x.isLt
    have h2 : (2 : Nat) ^ (8 * b.length) = 256 ^ b.length := by rw [pow_mul]; norm_num
    have key : ∀ (n v w : Nat), n ≤ b.length → beBytes (w * 256 ^ b.length + v) n = beBytes v n := by
      intro n
      induction n with
      | zero => intros; rfl
      | succ n ihn =>
        intro v w hn
        have e : (2 : Nat) ^ (8 * n) = 256 ^ n := by rw [pow_mul]; norm_num
        simp only [beBytes, ihn v w (by omega), Nat.shiftRight_eq_div_pow, e, List.cons.injEq, and_true]
        obtain ⟨d, hd⟩ := Nat.exists_eq_add_of_lt hn
        have : w * 256 ^ b.length + v = v + 256 ^ n * (256 * (w * 256 ^ d)) := by
          rw [hd, show n + d + 1 = n + 1 + d by omega, pow_add, pow_add]; ring
        rw [this, Nat.add_mul_div_left _ _ (by positivity)]
        apply BitVec.eq_of_toNat_eq
        simp [BitVec.toNat_ofNat, Nat.add_mod]
    simp only [List.length_cons, beBytes, beValue, key _ _ _ (Nat.le_refl _), ih, Nat.shiftRight_eq_div_pow, h2]
    rw [Nat.mul_comm, Nat.mul_add_div (by positivity), Nat.div_eq_of_lt hlt]
    simp

@[simp] theorem memBytes_length (b : Bytes) (a n : Nat) : (memBytes b a n).length = min n (b.length - a) := by
  simp [memBytes]

theorem memRead_lt (b : Bytes) (a n : Nat) : memRead b a n < 256 ^ n :=
  (beValue_lt _).trans_le (Nat.pow_le_pow_right (by norm_num) (by simp))

theorem memWrite_length {b : Bytes} {a n v : Nat} (h : a + n ≤ b.length) : (memWrite b a n v).length = b.length := by
  simp [memWrite]; omega

@[simp] theorem memAppend_length (b : Bytes) (v n : Nat) : (memAppend b v n).length = b.length + n := by
  simp [memAppend]

@[simp] theorem copyIn_eq (b : Bytes) : copyIn b = b := rfl

/-- A read of the bytes just written gives the value modulo 2^(8n). -/
theorem memRead_memWrite {b : Bytes} {a n v : Nat} (h : a + n ≤ b.length) :
    memRead (memWrite b a n v) a n = v % 256 ^ n := by
  have h1 : (b.take a).length = a := by simp; omega
  have : memBytes (memWrite b a n v) a n = beBytes v n := by
    simp only [memBytes, memWrite, List.append_assoc]
    rw [List.drop_append_of_le_length (by omega), List.drop_of_length_le (by omega)]
    simp
  rw [memRead, this, beValue_beBytes]

/-- A write leaves every byte outside the written ones as it was. -/
theorem readByte_memWrite_of_outside {b : Bytes} {a n v i : Nat} (h : a + n ≤ b.length) (hi : i < a ∨ a + n ≤ i) :
    readByte (memWrite b a n v) i = readByte b i := by
  have h1 : (b.take a).length = a := by simp; omega
  unfold readByte memWrite
  rcases hi with hi | hi
  · rw [List.append_assoc, List.getElem?_append_left (by omega), List.getElem?_take_of_lt hi]
  · rw [List.getElem?_append_right (by simp; omega), List.getElem?_drop]
    congr 1
    simp
    omega

theorem Memory.wf_memWrite {c : Nat} {b : Bytes} {a n v : Nat} (h : a + n ≤ b.length) (hb : Memory.wf c b) :
    Memory.wf c (memWrite b a n v) := by
  simpa [Memory.wf, memWrite_length h] using hb

theorem Memory.wf_memAppend {c : Nat} {b : Bytes} {v n : Nat} (h : b.length + n ≤ c) : Memory.wf c (memAppend b v n) := by
  simpa [Memory.wf] using h

theorem Memory.wf_copyIn {c : Nat} {b : Bytes} (hb : Memory.wf c b) : Memory.wf c (copyIn b) := hb

/-! ### Setting records -/

@[simp] theorem settingRecord_length (id v : Nat) : (settingRecord id v).length = 6 := by
  simp [settingRecord]

/-- What a decoded record is: an identifier 1 to 6 and its value, 0 or 1 for EnablePush (R122). -/
theorem decodeRecord_some {b : Bytes} {a : Nat} {e : Setting} (h : decodeRecord b a = some e) :
    e.kind.toNat = memRead b a 2 ∧ 1 ≤ memRead b a 2 ∧ memRead b a 2 ≤ 6 ∧
      e.val.toNat = settingValue (memRead b a 2) (memRead b (a + 2) 4) := by
  have hv := memRead_lt b (a + 2) 4
  simp only [decodeRecord] at h
  split at h
  · next hk =>
    simp only [knownSetting, Bool.and_eq_true, decide_eq_true_eq] at hk
    cases h
    refine ⟨?_, hk.1, hk.2, ?_⟩
    · simp; omega
    · have : settingValue (memRead b a 2) (memRead b (a + 2) 4) < 2 ^ 32 := by
        unfold settingValue; split <;> [split; skip] <;> omega
      simpa using Nat.mod_eq_of_lt this
  · cases h

theorem decodeRecord_none {b : Bytes} {a : Nat} (h : decodeRecord b a = none) :
    memRead b a 2 = 0 ∨ 6 < memRead b a 2 := by
  simp only [decodeRecord] at h
  split at h
  · cases h
  · next hk => simp [knownSetting] at hk; omega

theorem decodeSettings_length_le (n : Nat) (b : Bytes) : (decodeSettings n b).length ≤ n := by
  induction n generalizing b with
  | zero => simp [decodeSettings]
  | succ n ih =>
    have := ih (b.drop 6)
    have : (decodeRecord b 0).toList.length ≤ 1 := by cases decodeRecord b 0 <;> simp
    simp only [decodeSettings, List.length_append]
    omega

/-- The payload of a setting list is six bytes for each entry that is not the none sentinel (R130). -/
theorem encodeSettings_length {l : List Setting} {p : Bytes} (h : encodeSettings l = some p) :
    p.length = 6 * (l.filter fun e => decide (e.kind ≠ 0#16)).length := by
  induction l generalizing p with
  | nil => simp [encodeSettings] at h; simp [← h]
  | cons e es ih =>
    have hz : e.kind.toNat = 0 ↔ e.kind = 0#16 := by
      constructor
      · intro h0; exact BitVec.eq_of_toNat_eq (by simpa using h0)
      · rintro h0; simp [h0]
    simp only [encodeSettings] at h
    split at h
    · next h0 => simp [ih h, hz.mp h0]
    · next h0 =>
      split at h
      · cases h
      · split at h
        · next q hq =>
          cases h
          have : e.kind ≠ 0#16 := fun hk => h0 (hz.mpr hk)
          simp [ih hq, this]; omega
        · cases h

/-- A setting list has no payload exactly when some entry's kind names no variant (R174). -/
theorem encodeSettings_eq_none {l : List Setting} : encodeSettings l = none ↔ ∃ e ∈ l, 6 < e.kind.toNat := by
  induction l with
  | nil => simp [encodeSettings]
  | cons e es ih =>
    simp only [encodeSettings, List.mem_cons, exists_eq_or_imp]
    split
    · next h0 => rw [ih]; simp [h0]
    · split
      · next h6 => simp [h6]
      · next h6 =>
        split
        · next q hq => simp [hq] at ih; simp [h6]; exact ih
        · next hq => simp only [hq] at ih; simp [h6]; simpa using ih

/-! ### The host's side -/

theorem placeBufIn_next {m : HostMove} {bs : Option Bytes} {s t : State} (h : placeBufIn m bs s = .next t) :
    ∃ b, bs = some b ∧ b.length ≤ s.cfg.bufCapacity ∧ t = { s with req := { s.req with bufIn := some b } } := by
  unfold placeBufIn at h
  split at h
  · cases h
  · next b =>
    split at h
    · cases h
    · cases h; exact ⟨b, rfl, by omega, rfl⟩

/-- Placing bytes that are there: they stand in `BUF_IN` if they fit, and are no move otherwise. -/
theorem placeBufIn_some (m : HostMove) (b : Bytes) (s : State) :
    placeBufIn m (some b) s =
      if s.cfg.bufCapacity < b.length then noSuchMove m else .next { s with req := { s.req with bufIn := some b } } := rfl

/-- Placing never faults: a fault of a buffer write is a host read of `⊥` (R31). -/
theorem placeBufIn_fault {m : HostMove} {bs : Option Bytes} {s : State} {f : Fault} : placeBufIn m bs s ≠ .fault f := by
  unfold placeBufIn noSuchMove
  split
  · simp
  · split <;> simp

/-- A host write that faults read a response register holding `⊥`, and set `FAULTED` alone (R31). -/
theorem hostWrite_fault {x : ReqWrite} {s : State} {f : Fault} (h : hostWrite x s = .fault f) :
    f = .unwrittenRequest { s with faulted := true } := by
  cases x with
  | bufIn src =>
    cases src <;> simp only [hostWrite, writeBufIn, need_fault] at h
    case lit => exact absurd h placeBufIn_fault
    case slice => exact absurd h placeBufIn_fault
    all_goals
      obtain ⟨_, rfl⟩ | ⟨_, _, h⟩ := h
      · rfl
      · exact absurd h placeBufIn_fault
  | setIn es => simp only [hostWrite, noSuchMove] at h; split at h <;> cases h
  | _ => cases h

/-- No host write is refused for the unit's capacity: a move a host does not have is refused as such (log entry 11). -/
theorem hostWrite_refused {x : ReqWrite} {s u : State} : hostWrite x s ≠ .refused (.capacity u) := by
  have place : ∀ m bs, placeBufIn m bs s ≠ .refused (.capacity u) := by
    intro m bs
    unfold placeBufIn noSuchMove
    split
    · simp
    · split <;> simp
  intro h
  cases x with
  | bufIn src =>
    cases src <;> simp only [hostWrite, writeBufIn, need_refused] at h
    case lit => exact place _ _ h
    case slice => exact place _ _ h
    all_goals obtain ⟨_, _, h⟩ := h; exact place _ _ h
  | setIn es => simp only [hostWrite, noSuchMove] at h; split at h <;> cases h
  | _ => cases h

/-- A host write that succeeds changes request registers only (R22). -/
theorem hostWrite_next {x : ReqWrite} {s t : State} (h : hostWrite x s = .next t) :
    ∃ q, t = { s with req := q } := by
  cases x with
  | bufIn src =>
    cases src <;> simp only [hostWrite, writeBufIn, need_next] at h
    case lit => obtain ⟨b, _, _, rfl⟩ := placeBufIn_next h; exact ⟨_, rfl⟩
    case slice => obtain ⟨b, _, _, rfl⟩ := placeBufIn_next h; exact ⟨_, rfl⟩
    all_goals obtain ⟨_, _, h⟩ := h; obtain ⟨b, _, _, rfl⟩ := placeBufIn_next h; exact ⟨_, rfl⟩
  | setIn es =>
    simp only [hostWrite] at h
    split at h
    · cases h
    · cases h; exact ⟨_, rfl⟩
  | _ => simp only [hostWrite, Host.Outcome.next.injEq] at h; exact ⟨_, h.symm⟩

/-- A host read that succeeds adds the value read to what the host has seen, and nothing else (R91). -/
theorem hostRead_next {r : RespReg} {s t : State} :
    hostRead r s = .next t ↔ ∃ v, readResp r s.resp = some v ∧ t = { s with seen := v :: s.seen } := by
  rw [hostRead, need_next]
  simp only [Host.Outcome.next.injEq]
  constructor <;> (rintro ⟨v, h1, h2⟩; exact ⟨v, h1, h2.symm⟩)

/-- Forwarding that succeeds copies a header that is all there, and nothing else (R91). -/
theorem forwardHeader_next {s t : State} :
    forwardHeader s = .next t ↔
      ∃ h, s.resp.hdrOut = HeaderReg.of h ∧ t = { s with req := { s.req with hdrIn := HeaderReg.of h } } := by
  rw [forwardHeader, needHeader_eq, need_next]
  simp only [HeaderReg.value_eq_some, Host.Outcome.next.injEq]
  constructor <;> (rintro ⟨h, h1, h2⟩; exact ⟨h, h1, h2.symm⟩)

/-- Issuing a command that ends: the word decodes, and the unit ran that command (R85). -/
theorem issueCommand_next {w : Byte} {s t : State} :
    issueCommand w s = .next t ↔ ∃ i, decodeWord w = some i ∧ exec i (s.withCmd w) = .next t := by
  unfold issueCommand decode
  cases h : decodeWord w <;> simp [h, takeFault]

/-- Issuing a command that faults: the unit's command faulted, or the word is none (R85, R172). -/
theorem issueCommand_fault {w : Byte} {s : State} {f : Fault} :
    issueCommand w s = .fault f ↔
      (∃ i, decodeWord w = some i ∧ exec i (s.withCmd w) = .fault f) ∨
      (decodeWord w = none ∧ f = .illegalCommand { s.withCmd w with faulted := true }) := by
  unfold issueCommand decode
  cases h : decodeWord w
  · simp only [h, takeFault, Host.Outcome.fault.injEq, reduceCtorEq, false_and, exists_false, false_or, true_and]
    exact eq_comm
  · simp [h]

/-- What a step that ends can do, said once: nothing where the host makes no move, or the host's next move (R20). -/
theorem step_next {s t : State} :
    step s = .next t ↔
      (s.script = [] ∧ t = s) ∨ ∃ m rest, s.script = m :: rest ∧ performMove m { s with script := rest } = .next t := by
  unfold step stepHost
  cases s.script <;> simp [eq_comm]

/-- A step that stops is a host move that stops. -/
theorem step_fault {s : State} {f : Fault} :
    step s = .fault f ↔ ∃ m rest, s.script = m :: rest ∧ performMove m { s with script := rest } = .fault f := by
  unfold step stepHost
  cases s.script <;> simp

/-- A step is the host's next move. -/
theorem step_of_script {s : State} {m : HostMove} {rest : List HostMove} (h : s.script = m :: rest) :
    step s = performMove m { s with script := rest } := by
  unfold step stepHost; simp [h]

end Sys2Proof.Machine
end

