-- ==== Sys2Proof/Laws/PerInstr.lean ====
section
/-! SUPPORT. The family `Encoding`: what is stated of every command as syntax. -/

namespace Sys2Proof.Laws.Encoding

/-- A command is well formed, its word decodes to it with nothing left over, and its word's `GROUP` and `FUNC` are below 6 and 5
(R85, R86). -/
def Statement (i : Instr) : Prop :=
  i.wf = true ∧ decode (encode i) = .ok (i, []) ∧ decodeTableWord 8 (encodeWord i).toNat = some i ∧
    cmdGroup (encodeWord i) < 6 ∧ cmdFunc (encodeWord i) < 5

theorem readU24 : Statement .readU24 := by refine ⟨rfl, rfl, rfl, ?_, ?_⟩ <;> decide
theorem writeU24 : Statement .writeU24 := by refine ⟨rfl, rfl, rfl, ?_, ?_⟩ <;> decide
theorem readU31 : Statement .readU31 := by refine ⟨rfl, rfl, rfl, ?_, ?_⟩ <;> decide
theorem writeU31 : Statement .writeU31 := by refine ⟨rfl, rfl, rfl, ?_, ?_⟩ <;> decide
theorem hdrEnc : Statement .hdrEnc := by refine ⟨rfl, rfl, rfl, ?_, ?_⟩ <;> decide
theorem hdrDec : Statement .hdrDec := by refine ⟨rfl, rfl, rfl, ?_, ?_⟩ <;> decide
theorem setEnc : Statement .setEnc := by refine ⟨rfl, rfl, rfl, ?_, ?_⟩ <;> decide
theorem setDec : Statement .setDec := by refine ⟨rfl, rfl, rfl, ?_, ?_⟩ <;> decide
theorem settingsEnc : Statement .settingsEnc := by refine ⟨rfl, rfl, rfl, ?_, ?_⟩ <;> decide
theorem settingsDec : Statement .settingsDec := by refine ⟨rfl, rfl, rfl, ?_, ?_⟩ <;> decide
theorem headersEnc : Statement .headersEnc := by refine ⟨rfl, rfl, rfl, ?_, ?_⟩ <;> decide
theorem headersDec : Statement .headersDec := by refine ⟨rfl, rfl, rfl, ?_, ?_⟩ <;> decide
theorem dataEnc : Statement .dataEnc := by refine ⟨rfl, rfl, rfl, ?_, ?_⟩ <;> decide
theorem dataDec : Statement .dataDec := by refine ⟨rfl, rfl, rfl, ?_, ?_⟩ <;> decide

end Sys2Proof.Laws.Encoding
end

