-- ==== Sys2Proof/Laws/Safety.lean ====
section
/-! SUPPORT. The Boolean predicates of Safety and WellFormed as propositions, one lemma each. -/

namespace Sys2Proof.Machine

theorem cfgWf_iff {c : Config} :
    c.wf = true ↔ 9 ≤ c.bufCapacity ∧ c.bufCapacity ≤ 2 ^ 32 - 1 ∧ 1 ≤ c.setCapacity := by
  simp [Config.wf, and_assoc]

theorem Memory.wf_iff {c : Nat} {b : Bytes} : Memory.wf c b = true ↔ b.length ≤ c := by
  simp [Memory.wf]

theorem State.inv_iff {s : State} :
    s.inv = true ↔
      s.cfg.wf = true ∧ s.req.withinCapacity s.cfg = true ∧ s.resp.valuesOk s.cfg = true ∧ s.resp.noPartial = true := by
  simp [State.inv, and_assoc]

/-- A whole header register with one field that holds a value holds a header. -/
theorem HeaderReg.whole_flags {r : HeaderReg} {f : Byte} (h : r.whole = true) (hf : r.flags = some f) :
    ∃ x : Header, r = HeaderReg.of x := by
  simp only [HeaderReg.whole, Bool.or_eq_true, decide_eq_true_eq, Option.isSome_iff_exists, HeaderReg.value_eq_some] at h
  rcases h with rfl | h
  · cases hf
  · exact h

@[simp] theorem HeaderReg.whole_of (x : Header) : (HeaderReg.of x).whole = true := by
  simp [HeaderReg.whole]

/-- What a slice is: the bytes between its ends, where the sequence has them. -/
theorem sliceOf_eq_some {w b : Bytes} {a z : Nat} : sliceOf w a z = some b ↔ isSlice w a z b := by
  unfold sliceOf isSlice memBytes
  constructor
  · intro h
    split at h
    · next hz =>
      cases h
      refine ⟨w.take a, w.drop z, ?_, by simp; omega, by simp; omega⟩
      rw [List.append_assoc, show w.drop z = (w.drop a).drop (z - a) by rw [List.drop_drop]; congr 1; omega,
        List.take_append_drop, List.take_append_drop]
    · cases h
  · rintro ⟨pre, post, rfl, rfl, rfl⟩
    rw [if_pos (by simp)]
    simp

/-- A buffer the host wrote lies within capacity. -/
theorem Request.bufIn_le {q : Request} {c : Config} {b : Bytes} (h : q.withinCapacity c = true) (hb : q.bufIn = some b) :
    b.length ≤ c.bufCapacity := by
  simp [Request.withinCapacity, hb, Memory.wf] at h
  exact h.1

/-- The response registers a command starts with are in order whatever the parameters are. -/
@[simp] theorem Response.valuesOk_empty (c : Config) : Response.valuesOk c {} = true := rfl

/-- An outcome other than OK leaves nothing beside its code, and its code is one of R90. -/
theorem Response.valuesOk_status (c : Config) (o : CodecOutcome) :
    Response.valuesOk c { status := some (outcomeCode o) } = true := by
  cases o <;> rfl

/-- The memory of reset has its canonical form: no buffer holds a value. -/
theorem State.reset_buffers_wf :
    State.reset.req.bufIn.all (Memory.wf Config.given.bufCapacity) = true ∧
      State.reset.resp.bufOut.all (Memory.wf Config.given.bufCapacity) = true := ⟨rfl, rfl⟩

end Sys2Proof.Machine
end

