-- ==== Sys2Proof/Tests/Slice0.lean ====
section
/-! SUPPORT. Small tests, one step each: expected results come from the spec's vectors (95_test_vectors.md) and rules. After them, for
every statement of the certificate that has hypotheses, one theorem that meets them, at the boundary values of each clause. -/

namespace Sys2Proof.Tests
open Sys2Proof.Machine

/-! ### Helpers -/

/-- A unit of capacities `b` and `n` with given request registers. -/
def unit (b n : Nat) (q : Request) : State :=
  { cfg := { bufCapacity := b, setCapacity := n }, req := q, resp := {}, faulted := false, refused := false, script := [], seen := [] }

/-- A unit of the capacities the spec's vectors allow. -/
def at100 (q : Request) : State := unit 100 5 q

/-- A unit about to make the given host moves. -/
def doing (ms : List HostMove) (q : Request := {}) (p : Response := {}) : State :=
  { at100 q with script := ms, resp := p }

/-- The response registers a next state holds. -/
def respOf : Out → Option Response
  | .next t => some t.resp
  | _ => none

/-- Which fault a step takes, by the name of R171 to R174. -/
def faultName : Out → String
  | .fault (.unwrittenRequest _) => "UNWRITTEN_REQUEST"
  | .fault (.illegalCommand _) => "ILLEGAL_COMMAND"
  | .fault (.precondition _ _) => "PRECONDITION"
  | .fault (.illegalOperand _) => "ILLEGAL_OPERAND"
  | _ => "none"

/-- A step is refused for its capacity (R176). -/
def isCapacity : Out → Bool
  | .refused (.capacity _) => true
  | _ => false

/-- The status code a next state holds. -/
def statusOf : Out → Option Byte
  | .next t => t.resp.status
  | _ => none

theorem next_of_statusOf {o : Out} {c : Byte} (h : statusOf o = some c) : ∃ t, o = .next t ∧ t.resp.status = some c := by
  cases o <;> first | exact ⟨_, rfl, h⟩ | cases h

theorem refused_of_isCapacity {o : Out} (h : isCapacity o = true) : ∃ u, o = .refused (.capacity u) := by
  cases o with
  | refused r => cases r <;> first | exact ⟨_, rfl⟩ | cases h
  | _ => cases h

/-- Header registers as the vectors write them: {LEN, TYPE, FLAGS, SID}. -/
def hdr (len : Word) (type flags : Byte) (sid : Word) : HeaderReg :=
  HeaderReg.of { len := len, type := type, flags := flags, sid := sid }

/-- The block of L2-5. -/
def blk : Bytes := [0x82#8, 0x86#8, 0x84#8]

/-- The data of L2-6. -/
def dat : Bytes := [0x68#8, 0x65#8, 0x6C#8, 0x6C#8, 0x6F#8]

/-- The setting list of L1-1. -/
def set3 : List Setting := [⟨3#16, 100#32⟩, ⟨4#16, 1073741824#32⟩, ⟨2#16, 0#32⟩]

/-- The payload of L1-1. -/
def pay18 : Bytes :=
  [0x00#8, 0x03#8, 0x00#8, 0x00#8, 0x00#8, 0x64#8, 0x00#8, 0x04#8, 0x40#8, 0x00#8, 0x00#8, 0x00#8,
    0x00#8, 0x02#8, 0x00#8, 0x00#8, 0x00#8, 0x00#8]

/-- Every request register written, with values every command accepts. -/
def allWritten : Request :=
  { hdrIn := hdr 18#32 4#8 0#8 0#32, bufIn := some pay18, valIn := some 5#32, kindIn := some 1#16, ackIn := some true
    esIn := some true, ehIn := some false, setIn := some set3 }

/-! ### Well-formedness: an ill-formed term for each check -/

theorem test_wf_commands : ∀ i : Instr, i.wf = true := by intro i; cases i <;> rfl
theorem test_wf_config_accepts : Config.wf ⟨9, 1⟩ = true ∧ Config.wf ⟨2 ^ 32 - 1, 1⟩ = true := by decide
theorem test_wf_config_refuses_small_buffer : Config.wf ⟨8, 1⟩ = false := by decide
theorem test_wf_config_refuses_large_buffer : Config.wf ⟨2 ^ 32, 1⟩ = false := by decide
theorem test_wf_config_refuses_empty_list : Config.wf ⟨9, 0⟩ = false := by decide
theorem test_wf_setting_accepts : Setting.wf ⟨0#16, 5#32⟩ = true ∧ Setting.wf ⟨6#16, 5#32⟩ = true := by decide
theorem test_wf_setting_refuses_kind_7 : Setting.wf ⟨7#16, 5#32⟩ = false := by decide

/-! ### Decoding: each word written out from R86 -/

theorem test_decode_readU24 : decode [0b00000001#8] = .ok (.readU24, []) := by rfl
theorem test_decode_writeU24 : decode [0b00000010#8] = .ok (.writeU24, []) := by rfl
theorem test_decode_readU31 : decode [0b00000011#8] = .ok (.readU31, []) := by rfl
theorem test_decode_writeU31 : decode [0b00000100#8] = .ok (.writeU31, []) := by rfl
theorem test_decode_hdrEnc : decode [0b00010000#8] = .ok (.hdrEnc, []) := by rfl
theorem test_decode_hdrDec : decode [0b00010001#8] = .ok (.hdrDec, []) := by rfl
theorem test_decode_setEnc : decode [0b00100000#8] = .ok (.setEnc, []) := by rfl
theorem test_decode_setDec : decode [0b00100001#8] = .ok (.setDec, []) := by rfl
theorem test_decode_settingsEnc : decode [0b00110000#8] = .ok (.settingsEnc, []) := by rfl
theorem test_decode_settingsDec : decode [0b00110001#8] = .ok (.settingsDec, []) := by rfl
theorem test_decode_headersEnc : decode [0b01000000#8] = .ok (.headersEnc, []) := by rfl
theorem test_decode_headersDec : decode [0b01000001#8] = .ok (.headersDec, []) := by rfl
theorem test_decode_dataEnc : decode [0b01010000#8] = .ok (.dataEnc, []) := by rfl
theorem test_decode_dataDec : decode [0b01010001#8] = .ok (.dataDec, []) := by rfl

/-- R87's ranges at their edges. -/
theorem test_decode_illegal_edges :
    ([0x00#8, 0x05#8, 0x0F#8, 0x12#8, 0x1F#8, 0x22#8, 0x2F#8, 0x32#8, 0x3F#8, 0x42#8, 0x4F#8, 0x52#8, 0xFF#8].all
      fun w => (decodeWord w).isNone) = true := by decide

/-- R87 counts 242 illegal words. -/
theorem test_decode_illegal_count :
    ((List.range 256).filter fun n => (decodeWord (BitVec.ofNat 8 n)).isNone).length = 242 := by decide +kernel

theorem test_decode_table_word : decodeTableWord 8 0x31 = some .settingsDec := by rfl

/-- The word a fetch is given runs as the first step after reset: with `HDR_IN` never written, L2-7 #3. -/
theorem test_step_first_command_after_reset :
    faultName (Machine.step (State.reset.withFetchWord 8 0x10)) = "UNWRITTEN_REQUEST" := by rfl

/-- L2-7 #1 and #2. -/
theorem test_step_illegal_commands :
    faultName (Machine.step (doing [.cmd 0x12])) = "ILLEGAL_COMMAND" ∧
    faultName (Machine.step (doing [.cmd 0x00])) = "ILLEGAL_COMMAND" := by decide

/-! ### The integer primitives (L2-1) -/

/-- L2-1 #3. -/
theorem test_readU24 :
    respOf (exec .readU24 (at100 { bufIn := some [0x01#8, 0x02#8, 0x03#8, 0x04#8] })) =
      some { status := some 0x00#8, valOut := some 0x010203#32 } := by decide

/-- L2-1 #4. -/
theorem test_readU24_short : faultName (exec .readU24 (at100 { bufIn := some [0x00#8, 0x00#8] })) = "PRECONDITION" := by decide

/-- L2-1 #11. -/
theorem test_writeU24 :
    respOf (exec .writeU24 (at100 { bufIn := some [0xAA#8, 0xBB#8, 0xCC#8, 0xDD#8], valIn := some 0x123456#32 })) =
      some { status := some 0x00#8, bufOut := some [0x12#8, 0x34#8, 0x56#8, 0xDD#8] } := by decide

/-- L2-1 #13 and #14: the length is tested before the value. -/
theorem test_writeU24_faults :
    (match exec .writeU24 (at100 { bufIn := some [0#8, 0#8, 0#8], valIn := some 0x1000000#32 }) with
      | .fault (.precondition w _) => decide (w = .writeU24Wide) | _ => false) = true ∧
    (match exec .writeU24 (at100 { bufIn := some [0#8, 0#8], valIn := some 0x1000000#32 }) with
      | .fault (.precondition w _) => decide (w = .writeU24Short) | _ => false) = true := by decide

/-- L2-1 #6. -/
theorem test_readU31 :
    respOf (exec .readU31 (at100 { bufIn := some [0x80#8, 0x00#8, 0x00#8, 0x01#8] })) =
      some { status := some 0x00#8, valOut := some 1#32 } := by decide

/-- L2-1 #10. -/
theorem test_readU31_short : faultName (exec .readU31 (at100 { bufIn := some [1#8, 2#8, 3#8] })) = "PRECONDITION" := by decide

/-- L2-1 #16. -/
theorem test_writeU31 :
    respOf (exec .writeU31 (at100 { bufIn := some [0#8, 0#8, 0#8, 0#8], valIn := some 0xFFFFFFFF#32 })) =
      some { status := some 0x00#8, bufOut := some [0x7F#8, 0xFF#8, 0xFF#8, 0xFF#8] } := by decide

/-- L2-1 #18. -/
theorem test_writeU31_keeps_the_rest :
    respOf (exec .writeU31 (at100 { bufIn := some [9#8, 9#8, 9#8, 9#8, 9#8, 9#8], valIn := some 0x7FFFFFFF#32 })) =
      some { status := some 0x00#8, bufOut := some [0x7F#8, 0xFF#8, 0xFF#8, 0xFF#8, 9#8, 9#8] } := by decide

/-! ### The header codec (L2-2) -/

/-- L2-2 #5. -/
theorem test_hdrEnc :
    respOf (exec .hdrEnc (at100 { hdrIn := hdr 0#32 0x0A#8 0x00#8 0x80000001#32 })) =
      some { status := some 0x00#8
             bufOut := some [0x00#8, 0x00#8, 0x00#8, 0x0A#8, 0x00#8, 0x00#8, 0x00#8, 0x00#8, 0x01#8] } := by decide

/-- L2-2 #3. -/
theorem test_hdrEnc_too_big :
    respOf (exec .hdrEnc (at100 { hdrIn := hdr 0x1000000#32 0#8 0#8 0#32 })) = some { status := some 0x01#8 } := by decide

/-- L2-2 #12. -/
theorem test_hdrDec :
    respOf (exec .hdrDec (at100
        { bufIn := some [0x00#8, 0x00#8, 0x03#8, 0x01#8, 0x05#8, 0x00#8, 0x00#8, 0x00#8, 0x01#8, 0xAA#8, 0xBB#8] })) =
      some { status := some 0x00#8, hdrOut := hdr 3#32 0x01#8 0x05#8 1#32 } := by decide

/-- L2-2 #10. -/
theorem test_hdrDec_short :
    respOf (exec .hdrDec (at100 { bufIn := some [0#8, 0#8, 0#8, 4#8, 0#8, 0#8, 0#8, 0#8] })) =
      some { status := some 0x02#8 } := by decide

/-! ### The setting codec (L2-3) -/

/-- L2-3 #5. -/
theorem test_setEnc_boolean :
    respOf (exec .setEnc (at100 { bufIn := some [], kindIn := some 2#16, valIn := some 5#32 })) =
      some { status := some 0x00#8, bufOut := some [0x00#8, 0x02#8, 0x00#8, 0x00#8, 0x00#8, 0x01#8] } := by decide

/-- L2-3 #10. -/
theorem test_setEnc_appends :
    respOf (exec .setEnc (at100 { bufIn := some [0#8, 3#8, 0#8, 0#8, 0#8, 0x64#8], kindIn := some 4#16, valIn := some 65535#32 })) =
      some { status := some 0x00#8
             bufOut := some [0#8, 3#8, 0#8, 0#8, 0#8, 0x64#8, 0#8, 4#8, 0#8, 0#8, 0xFF#8, 0xFF#8] } := by decide

/-- L2-3 #13. -/
theorem test_setDec_boolean :
    respOf (exec .setDec (at100 { bufIn := some [0#8, 2#8, 0#8, 0#8, 0#8, 5#8] })) =
      some { status := some 0x00#8, kindOut := some 2#16, valOut := some 1#32 } := by decide +kernel

/-- L2-3 #15 and #20. -/
theorem test_setDec_unknown_and_invalid :
    respOf (exec .setDec (at100 { bufIn := some [0#8, 0#8, 0#8, 0#8, 0#8, 1#8] })) = some { status := some 0x05#8 } ∧
    respOf (exec .setDec (at100 { bufIn := some [0#8, 3#8, 0#8, 0#8, 0#8] })) = some { status := some 0x04#8 } := by decide

/-! ### The SETTINGS frame codec (L1-1, L2-4) -/

/-- L1-1, encode. -/
theorem test_settingsEnc :
    respOf (exec .settingsEnc (at100 { ackIn := some false, setIn := some set3 })) =
      some { status := some 0x00#8, hdrOut := hdr 18#32 0x04#8 0x00#8 0#32, bufOut := some pay18 } := by decide

/-- L2-4 #4. -/
theorem test_settingsEnc_skips_none :
    respOf (exec .settingsEnc (at100 { ackIn := some false, setIn := some [⟨0#16, 5#32⟩, ⟨6#16, 8192#32⟩] })) =
      some { status := some 0x00#8, hdrOut := hdr 6#32 0x04#8 0x00#8 0#32
             bufOut := some [0#8, 6#8, 0#8, 0#8, 0x20#8, 0#8] } := by decide

/-- L2-4 #10. -/
theorem test_settingsDec :
    respOf (exec .settingsDec (at100
        { hdrIn := hdr 18#32 4#8 0#8 0#32
          bufIn := some [0#8, 1#8, 0#8, 0#8, 0x10#8, 0#8, 0#8, 0x99#8, 0#8, 0#8, 0#8, 7#8, 0#8, 5#8, 0#8, 0#8, 0x40#8, 0#8] })) =
      some { status := some 0x00#8, hdrOut := hdr 18#32 4#8 0#8 0#32, ackOut := some false
             setOut := some [⟨1#16, 4096#32⟩, ⟨5#16, 16384#32⟩] } := by decide +kernel

/-- L2-4 #8. -/
theorem test_settingsDec_short :
    respOf (exec .settingsDec (at100 { hdrIn := hdr 5#32 4#8 0#8 0#32, bufIn := some [0#8, 0#8, 0#8, 0#8, 0#8] })) =
      some { status := some 0x03#8 } := by decide

/-! ### The HEADERS frame codec (L2-5) -/

/-- L2-5 #6. -/
theorem test_headersEnc :
    respOf (exec .headersEnc (at100
        { hdrIn := hdr 7#32 0x09#8 0x12#8 0x80000003#32, esIn := some false, ehIn := some true, bufIn := some blk })) =
      some { status := some 0x00#8, hdrOut := hdr 3#32 0x01#8 0x16#8 0x80000003#32, bufOut := some blk } := by decide

/-- L2-5 #3. -/
theorem test_headersEnc_priority :
    respOf (exec .headersEnc (at100
        { hdrIn := hdr 0#32 0x01#8 0x20#8 1#32, esIn := some false, ehIn := some false, bufIn := some blk })) =
      some { status := some 0x06#8 } := by decide

/-- L2-5 #8. -/
theorem test_headersDec :
    respOf (exec .headersDec (at100 { hdrIn := hdr 3#32 0x01#8 0x04#8 3#32, bufIn := some blk })) =
      some { status := some 0x00#8, hdrOut := hdr 3#32 0x01#8 0x04#8 3#32, esOut := some false, ehOut := some true
             bufOut := some blk } := by decide

/-- L2-5 #10. -/
theorem test_headersDec_padded :
    respOf (exec .headersDec (at100 { hdrIn := hdr 3#32 0x01#8 0x08#8 3#32, bufIn := some blk })) =
      some { status := some 0x06#8 } := by decide

/-! ### The DATA frame codec (L2-6) -/

/-- L2-6 #3: the priority bit is carried. -/
theorem test_dataEnc :
    respOf (exec .dataEnc (at100 { hdrIn := hdr 0#32 0#8 0x20#8 1#32, esIn := some false, bufIn := some dat })) =
      some { status := some 0x00#8, hdrOut := hdr 5#32 0#8 0x20#8 1#32, bufOut := some dat } := by decide

/-- L2-6 #5. -/
theorem test_dataEnc_padded :
    respOf (exec .dataEnc (at100 { hdrIn := hdr 0#32 0#8 0x09#8 1#32, esIn := some true, bufIn := some dat })) =
      some { status := some 0x06#8 } := by decide

/-- L2-6 #8. -/
theorem test_dataDec :
    respOf (exec .dataDec (at100 { hdrIn := hdr 5#32 0#8 0x21#8 7#32, bufIn := some dat })) =
      some { status := some 0x00#8, hdrOut := hdr 5#32 0#8 0x21#8 7#32, esOut := some true, bufOut := some dat } := by decide

/-- L2-6 #11. -/
theorem test_dataDec_padded :
    respOf (exec .dataDec (at100 { hdrIn := hdr 5#32 0#8 0x29#8 7#32, bufIn := some dat })) = some { status := some 0x06#8 } := by
  decide

/-! ### Faults, refusals and host moves (L2-7, P1, P5) -/

/-- L2-7 #5: `BUF_CAPACITY` 16, `|BUF_IN|` 12, kind 1. -/
theorem test_capacity :
    isCapacity (exec .setEnc (unit 16 5 { bufIn := some (List.replicate 12 0#8), kindIn := some 1#16, valIn := some 1#32 })) = true := by
  decide

/-- L2-7 #6: after `READ_U24` the host reads `BUF_OUT`. -/
theorem test_host_reads_bottom :
    faultName (Machine.step (doing [.rd .bufOut] {} { status := some 0#8, valOut := some 18#32 })) = "UNWRITTEN_REQUEST" := by decide

/-- P1's forward: the four fields of `HDR_OUT` in `HDR_IN`. -/
theorem test_forward :
    (match Machine.step (doing [.fwd] {} { status := some 0#8, hdrOut := hdr 18#32 4#8 0#8 0#32 }) with
      | .next t => decide (t.req.hdrIn = hdr 18#32 4#8 0#8 0#32) | _ => false) = true := by decide

/-- A host value is taken modulo 2^width (R26). -/
theorem test_host_write_wraps :
    (match Machine.step (doing [.wr (.kindIn 0x10003)]) with
      | .next t => decide (t.req.kindIn = some 3#16) | _ => false) = true := by decide

/-! ### Witnesses: the hypotheses of each statement are met, clause by clause -/

theorem witness_CommandWordsRoundTrip :
    (∃ i : Instr, i.wf = true) ∧ ∃ (w : Byte) (i : Instr), decodeWord w = some i :=
  ⟨⟨.readU24, rfl⟩, ⟨0x51#8, .dataDec, rfl⟩⟩

theorem witness_StepRunsIssuedCommand :
    ∃ (s : State) (n : Nat) (rest : List HostMove) (i : Instr),
      s.script = .cmd n :: rest ∧ decodeWord (BitVec.ofNat 8 n) = some i ∧ i.wf = true :=
  ⟨doing [.cmd 0x11, .fwd], 0x11, [.fwd], .hdrDec, rfl, rfl, rfl⟩

theorem witness_IllegalWordFaults :
    ∃ (s : State) (n : Nat) (rest : List HostMove),
      s.script = .cmd n :: rest ∧ ∀ i : Instr, encodeWord i ≠ BitVec.ofNat 8 n :=
  ⟨doing [.cmd 0x12], 0x12, [], rfl, by intro i; cases i <;> decide⟩

/-- Two bytes, and three. -/
theorem witness_ReadU24ReadsThreeBytes :
    (∃ (s : State) (b : Bytes), s.req.bufIn = some b ∧ b.length < 3) ∧
    ∃ (s : State) (b0 b1 b2 : Byte) (rest : Bytes), s.req.bufIn = some (b0 :: b1 :: b2 :: rest) :=
  ⟨⟨at100 { bufIn := some [1#8, 2#8] }, [1#8, 2#8], rfl, by decide⟩, ⟨at100 { bufIn := some blk }, _, _, _, _, rfl⟩⟩

/-- Two bytes; three bytes with 2^24; three bytes with 2^24 - 1. -/
theorem witness_WriteU24ReplacesThreeBytes :
    (∃ (s : State) (b : Bytes), s.req.bufIn = some b ∧ b.length < 3) ∧
    (∃ (s : State) (b : Bytes) (v : Word), s.req.bufIn = some b ∧ 3 ≤ b.length ∧ s.req.valIn = some v ∧ 2 ^ 24 ≤ v.toNat) ∧
    ∃ (s : State) (b0 b1 b2 : Byte) (rest : Bytes) (v : Word),
      s.req.bufIn = some (b0 :: b1 :: b2 :: rest) ∧ s.req.valIn = some v ∧ v.toNat < 2 ^ 24 :=
  ⟨⟨at100 { bufIn := some [1#8, 2#8] }, [1#8, 2#8], rfl, by decide⟩,
    ⟨at100 { bufIn := some blk, valIn := some 0x1000000#32 }, blk, _, rfl, by decide, rfl, by decide⟩,
    ⟨at100 { bufIn := some blk, valIn := some 0xFFFFFF#32 }, _, _, _, _, _, rfl, rfl, by decide⟩⟩

/-- Three bytes, and four. -/
theorem witness_ReadU31ClearsTheTopBit :
    (∃ (s : State) (b : Bytes), s.req.bufIn = some b ∧ b.length < 4) ∧
    ∃ (s : State) (b0 b1 b2 b3 : Byte) (rest : Bytes), s.req.bufIn = some (b0 :: b1 :: b2 :: b3 :: rest) :=
  ⟨⟨at100 { bufIn := some blk }, blk, rfl, by decide⟩,
    ⟨at100 { bufIn := some [0xFF#8, 0#8, 0#8, 1#8] }, _, _, _, _, _, rfl⟩⟩

/-- Three bytes, and four with a value whose top bit is set. -/
theorem witness_WriteU31ClearsTheTopBit :
    (∃ (s : State) (b : Bytes), s.req.bufIn = some b ∧ b.length < 4) ∧
    ∃ (s : State) (b0 b1 b2 b3 : Byte) (rest : Bytes) (v : Word),
      s.req.bufIn = some (b0 :: b1 :: b2 :: b3 :: rest) ∧ s.req.valIn = some v :=
  ⟨⟨at100 { bufIn := some blk }, blk, rfl, by decide⟩,
    ⟨at100 { bufIn := some [0#8, 0#8, 0#8, 0#8], valIn := some 0x80000000#32 }, _, _, _, _, _, _, rfl, rfl⟩⟩

theorem witness_PrimitiveValuesStayInRange :
    (∃ (s t : State) (v : Word), exec .readU24 s = .next t ∧ t.resp.valOut = some v) ∧
    (∃ (s t : State) (b : Bytes) (v : Word), s.req.bufIn = some b ∧ exec .readU31 s = .next t ∧ t.resp.valOut = some v) ∧
    ∃ (s t : State) (b : Bytes) (v : Word), s.req.valIn = some v ∧ exec .writeU31 s = .next t ∧ t.resp.bufOut = some b :=
  ⟨⟨at100 allWritten, _, _, rfl, rfl⟩, ⟨at100 allWritten, _, _, _, rfl, rfl, rfl⟩, ⟨at100 allWritten, _, _, _, rfl, rfl, rfl⟩⟩

/-- Three bytes with 2^24 - 1; four bytes with a value above 2^31, and with 2^31 - 1. -/
theorem witness_IntegerRoundTrips :
    (∃ (s : State) (b : Bytes) (v : Word), s.req.bufIn = some b ∧ 3 ≤ b.length ∧ s.req.valIn = some v ∧ v.toNat < 2 ^ 24) ∧
    (∃ (s : State) (b : Bytes) (v : Word), s.req.bufIn = some b ∧ 4 ≤ b.length ∧ s.req.valIn = some v ∧ 2 ^ 31 ≤ v.toNat) ∧
    ∃ (s : State) (b : Bytes) (v : Word), s.req.bufIn = some b ∧ 4 ≤ b.length ∧ s.req.valIn = some v ∧ v.toNat < 2 ^ 31 :=
  ⟨⟨at100 { bufIn := some blk, valIn := some 0xFFFFFF#32 }, blk, _, rfl, by decide, rfl, by decide⟩,
    ⟨at100 { bufIn := some dat, valIn := some 0x80000000#32 }, dat, _, rfl, by decide, rfl, by decide⟩,
    ⟨at100 { bufIn := some dat, valIn := some 0x7FFFFFFF#32 }, dat, _, rfl, by decide, rfl, by decide⟩⟩

/-- `LEN` 2^24, and 2^24 - 1. -/
theorem witness_HdrEncWritesNineBytes :
    (∃ (s : State) (len : Word), s.req.hdrIn.len = some len ∧ 2 ^ 24 ≤ len.toNat) ∧
    ∃ (s : State) (h : Header), s.req.hdrIn = HeaderReg.of h ∧ h.len.toNat < 2 ^ 24 :=
  ⟨⟨at100 { hdrIn := hdr 0x1000000#32 0#8 0#8 0#32 }, _, rfl, by decide⟩,
    ⟨at100 { hdrIn := hdr 0xFFFFFF#32 0xFF#8 0xFF#8 0xFFFFFFFF#32 }, _, rfl, by decide⟩⟩

/-- Eight bytes, and nine. -/
theorem witness_HdrDecReadsNineBytes :
    (∃ (s : State) (b : Bytes), s.req.bufIn = some b ∧ b.length < 9) ∧
    ∃ (s : State) (l0 l1 l2 t f i0 i1 i2 i3 : Byte) (rest : Bytes),
      s.req.bufIn = some ([l0, l1, l2, t, f, i0, i1, i2, i3] ++ rest) :=
  ⟨⟨at100 { bufIn := some (blk ++ dat) }, _, rfl, by decide⟩,
    ⟨at100 { bufIn := some [0#8, 0#8, 8#8, 6#8, 1#8, 0#8, 0#8, 0#8, 0#8] }, _, _, _, _, _, _, _, _, _, [], rfl⟩⟩

/-- A stream id of 2^31 - 1 and one of 2^31; byte 5 with its top bit clear and with it set. -/
theorem witness_HeaderRoundTrips :
    (∃ (s : State) (h : Header), s.req.hdrIn = HeaderReg.of h ∧ h.len.toNat < 2 ^ 24 ∧ h.sid.toNat < 2 ^ 31) ∧
    (∃ (s : State) (h : Header), s.req.hdrIn = HeaderReg.of h ∧ h.len.toNat < 2 ^ 24 ∧ 2 ^ 31 ≤ h.sid.toNat) ∧
    (∃ (s : State) (b0 b1 b2 b3 b4 b5 b6 b7 b8 : Byte), s.req.bufIn = some [b0, b1, b2, b3, b4, b5, b6, b7, b8] ∧ b5.msb = false) ∧
    ∃ (s : State) (b0 b1 b2 b3 b4 b5 b6 b7 b8 : Byte), s.req.bufIn = some [b0, b1, b2, b3, b4, b5, b6, b7, b8] ∧ b5.msb = true :=
  ⟨⟨at100 { hdrIn := hdr 0xFFFFFF#32 0#8 0#8 0x7FFFFFFF#32 }, _, rfl, by decide, by decide⟩,
    ⟨at100 { hdrIn := hdr 0#32 0#8 0#8 0x80000000#32 }, _, rfl, by decide, by decide⟩,
    ⟨at100 { bufIn := some [0#8, 0#8, 8#8, 6#8, 1#8, 0x7F#8, 0#8, 0#8, 0#8] }, _, _, _, _, _, _, _, _, _, rfl, by decide⟩,
    ⟨at100 { bufIn := some [0#8, 0#8, 8#8, 6#8, 1#8, 0x80#8, 0#8, 0#8, 0#8] }, _, _, _, _, _, _, _, _, _, rfl, by decide⟩⟩

/-- A state each way a command can end, with a frame type in it. -/
theorem witness_FrameTypeIsNeverRefused :
    (∃ t, exec .headersDec (at100 { hdrIn := hdr 0#32 0xFE#8 0#8 0#32, bufIn := some blk }) = .next t) ∧
    (∃ f, exec .headersDec (at100 { hdrIn := hdr 0#32 0xFE#8 0#8 0#32 }) = .fault f) ∧
    ∃ u, exec .settingsDec (unit 100 1 { hdrIn := hdr 0#32 0xFE#8 0#8 0#32, bufIn := some pay18 }) = .refused (.capacity u) :=
  ⟨⟨_, rfl⟩, ⟨_, rfl⟩, refused_of_isCapacity (by decide +kernel)⟩

/-- Kind 0; kind 7; kind 1 with the record one byte too long; kind 6 with it just fitting. -/
theorem witness_SetEncAppendsOneRecord :
    (∃ (s : State) (k : Half) (b : Bytes), s.req.kindIn = some k ∧ k = 0#16 ∧ s.req.bufIn = some b) ∧
    (∃ (s : State) (k : Half), s.req.kindIn = some k ∧ 6 < k.toNat) ∧
    (∃ (s : State) (k : Half) (v : Word) (b : Bytes), s.req.kindIn = some k ∧ 1 ≤ k.toNat ∧ k.toNat ≤ 6 ∧ s.req.valIn = some v ∧
      s.req.bufIn = some b ∧ s.cfg.bufCapacity < b.length + 6) ∧
    ∃ (s : State) (k : Half) (v : Word) (b : Bytes), s.req.kindIn = some k ∧ 1 ≤ k.toNat ∧ k.toNat ≤ 6 ∧ s.req.valIn = some v ∧
      s.req.bufIn = some b ∧ b.length + 6 ≤ s.cfg.bufCapacity :=
  ⟨⟨at100 { kindIn := some 0#16, bufIn := some [0xAB#8] }, _, _, rfl, rfl, rfl⟩,
    ⟨at100 { kindIn := some 7#16 }, _, rfl, by decide⟩,
    ⟨unit 10 1 { kindIn := some 1#16, valIn := some 1#32, bufIn := some dat }, _, _, dat, rfl, by decide, by decide, rfl, rfl, by decide⟩,
    ⟨unit 11 1 { kindIn := some 6#16, valIn := some 1#32, bufIn := some dat }, _, _, dat, rfl, by decide, by decide, rfl, rfl, by decide⟩⟩

/-- Five bytes; identifiers 0 and 7; identifiers 1 and 6. -/
theorem witness_SetDecReadsOneRecord :
    (∃ (s : State) (b : Bytes), s.req.bufIn = some b ∧ b.length < 6) ∧
    ((settingOfWire [0#8, 0#8, 0#8, 0#8, 0#8, 1#8] = none ∧ settingOfWire [0#8, 7#8, 0#8, 0#8, 0#8, 1#8] = none) ∧
      ∃ (s : State) (b : Bytes), s.req.bufIn = some b ∧ 6 ≤ b.length ∧ settingOfWire (b.take 6) = none) ∧
    ((settingOfWire [0#8, 1#8, 0#8, 0#8, 0#8, 1#8] = some ⟨1#16, 1#32⟩ ∧
        settingOfWire [0#8, 6#8, 0#8, 0#8, 0#8, 1#8] = some ⟨6#16, 1#32⟩) ∧
      ∃ (s : State) (b : Bytes) (e : Setting), s.req.bufIn = some b ∧ 6 ≤ b.length ∧ settingOfWire (b.take 6) = some e) :=
  ⟨⟨at100 { bufIn := some dat }, _, rfl, by decide⟩,
    ⟨⟨by decide, by decide⟩,
      ⟨at100 { bufIn := some [0#8, 7#8, 0#8, 0#8, 0#8, 1#8] }, _, rfl, by decide, by decide⟩⟩,
    ⟨⟨by decide, by decide⟩,
      ⟨at100 { bufIn := some [0#8, 6#8, 0#8, 0#8, 0#8, 1#8, 0xEE#8] }, _, ⟨6#16, 1#32⟩, rfl, by decide, by decide⟩⟩⟩

/-- Kinds 1, 6 and 2 (with a value that is not 0 or 1), both ways. -/
theorem witness_SettingRoundTrips :
    (∀ k ∈ [1#16, 2#16, 6#16], ∃ (s : State) (v : Word), s.cfg.wf = true ∧ s.req.bufIn = some [] ∧ s.req.kindIn = some k ∧
      s.req.valIn = some v ∧ 1 ≤ k.toNat ∧ k.toNat ≤ 6) ∧
    ∀ k ∈ [1#16, 2#16, 6#16], ∃ (s : State) (v : Word), s.cfg.wf = true ∧ s.req.bufIn = some (wireHalf k ++ wireWord v) ∧
      1 ≤ k.toNat ∧ k.toNat ≤ 6 :=
  ⟨fun k hk =>
      have h : 1 ≤ k.toNat ∧ k.toNat ≤ 6 := by fin_cases hk <;> decide
      ⟨at100 { bufIn := some [], kindIn := some k, valIn := some 5#32 }, 5#32, rfl, rfl, rfl, rfl, h⟩,
    fun k hk =>
      have h : 1 ≤ k.toNat ∧ k.toNat ≤ 6 := by fin_cases hk <;> decide
      ⟨at100 { bufIn := some (wireHalf k ++ wireWord 5#32) }, 5#32, rfl, rfl, h⟩⟩

/-- An entry of kind 7; a payload one byte too long; one just fitting, with a none entry in the list. -/
theorem witness_SettingsEncWritesTheRecords :
    (∃ (s : State) (l : List Setting), s.req.setIn = some l ∧ ∃ e ∈ l, 6 < e.kind.toNat) ∧
    (∃ (s : State) (l : List Setting), s.req.setIn = some l ∧ (∀ e ∈ l, e.kind.toNat ≤ 6) ∧
      s.cfg.bufCapacity < 6 * (realSettings l).length) ∧
    ∃ (s : State) (l : List Setting) (a : Bool), s.req.setIn = some l ∧ (∀ e ∈ l, e.kind.toNat ≤ 6) ∧
      6 * (realSettings l).length ≤ s.cfg.bufCapacity ∧ s.req.ackIn = some a :=
  ⟨⟨at100 { setIn := some [⟨1#16, 1#32⟩, ⟨7#16, 1#32⟩] }, _, rfl, ⟨7#16, 1#32⟩, by decide, by decide⟩,
    ⟨unit 17 5 { setIn := some set3 }, _, rfl, by decide, by decide⟩,
    ⟨unit 18 5 { setIn := some (⟨0#16, 9#32⟩ :: set3), ackIn := some true }, _, _, rfl, by decide, by decide, rfl⟩⟩

/-- Seven bytes; three records where two fit; two records, one of them unknown, where one fits. -/
theorem witness_SettingsDecReadsTheRecords :
    (∃ (s : State) (b : Bytes), s.req.bufIn = some b ∧ b.length ≠ 0 ∧ b.length % 6 ≠ 0) ∧
    (∃ (s : State) (rs : List Bytes), s.req.bufIn = some rs.flatten ∧ (∀ r ∈ rs, r.length = 6) ∧
      s.cfg.setCapacity < (rs.filterMap settingOfWire).length) ∧
    ∃ (s : State) (rs : List Bytes) (h : Header), s.req.bufIn = some rs.flatten ∧ (∀ r ∈ rs, r.length = 6) ∧
      (rs.filterMap settingOfWire).length ≤ s.cfg.setCapacity ∧ s.req.hdrIn = HeaderReg.of h :=
  ⟨⟨at100 { bufIn := some (List.replicate 7 0#8) }, _, rfl, by decide, by decide⟩,
    ⟨unit 100 1 { bufIn := some [0#8, 1#8, 0#8, 0#8, 0#8, 1#8, 0#8, 6#8, 0#8, 0#8, 0#8, 1#8] },
      [[0#8, 1#8, 0#8, 0#8, 0#8, 1#8], [0#8, 6#8, 0#8, 0#8, 0#8, 1#8]], rfl, by decide, by decide⟩,
    ⟨unit 100 1 { bufIn := some [0#8, 1#8, 0#8, 0#8, 0#8, 1#8, 0#8, 7#8, 0#8, 0#8, 0#8, 1#8], hdrIn := hdr 12#32 4#8 0#8 0#32 },
      [[0#8, 1#8, 0#8, 0#8, 0#8, 1#8], [0#8, 7#8, 0#8, 0#8, 0#8, 1#8]], _, rfl, by decide, by decide, rfl⟩⟩

theorem witness_AckFramesWithSettingsPass :
    (∃ (s : State) (l : List Setting), s.req.ackIn = some true ∧ s.req.setIn = some l ∧ l ≠ [] ∧ (∀ e ∈ l, e.kind.toNat ≤ 6) ∧
      6 * (realSettings l).length ≤ s.cfg.bufCapacity) ∧
    ∃ (s : State) (h : Header) (rs : List Bytes), s.req.hdrIn = HeaderReg.of h ∧ h.flags.getLsbD 0 = true ∧
      s.req.bufIn = some rs.flatten ∧ rs ≠ [] ∧ (∀ r ∈ rs, r.length = 6) ∧
      (rs.filterMap settingOfWire).length ≤ s.cfg.setCapacity :=
  ⟨⟨at100 { ackIn := some true, setIn := some set3 }, _, rfl, rfl, by decide, by decide, by decide⟩,
    ⟨at100 { hdrIn := hdr 0#32 4#8 1#8 0#32, bufIn := some [0#8, 1#8, 0#8, 0#8, 0x10#8, 0#8] }, _,
      [[0#8, 1#8, 0#8, 0#8, 0x10#8, 0#8]], rfl, by decide, rfl, by decide, by decide, by decide⟩⟩

/-- Three settings where 18 bytes and three entries just fit. -/
theorem witness_SettingsFrameRoundTrip :
    ∃ (s : State) (a : Bool) (l : List Setting), s.req.ackIn = some a ∧ s.req.setIn = some l ∧ (∀ e ∈ l, e.decoded = true) ∧
      6 * l.length ≤ s.cfg.bufCapacity ∧ l.length ≤ s.cfg.setCapacity :=
  ⟨unit 18 3 { ackIn := some true, setIn := some set3 }, _, _, rfl, rfl, by decide, by decide, by decide⟩

/-- Bit 3 alone, bit 5 alone, and every bit but those two. -/
theorem witness_HeadersEncBuildsTheHeader :
    (∀ f ∈ [0x08#8, 0x20#8], ∃ s : State, s.req.hdrIn.flags = some f ∧ (f.getLsbD 3 || f.getLsbD 5) = true) ∧
    ∃ (s : State) (f : Byte) (es eh : Bool) (b : Bytes) (sid : Word), s.req.hdrIn.flags = some f ∧
      (f.getLsbD 3 || f.getLsbD 5) = false ∧ s.req.esIn = some es ∧ s.req.ehIn = some eh ∧ s.req.bufIn = some b ∧
      s.req.hdrIn.sid = some sid :=
  ⟨fun f hf => ⟨at100 { hdrIn := hdr 0#32 1#8 f 1#32 }, rfl, by revert f; decide⟩,
    ⟨at100 { hdrIn := { flags := some 0xD7#8, sid := some 0x80000003#32 }, esIn := some false, ehIn := some true, bufIn := some blk },
      _, _, _, _, _, rfl, by decide, rfl, rfl, rfl, rfl⟩⟩

/-- Bit 3 alone, bit 5 alone, and every bit but those two. -/
theorem witness_HeadersDecSplitsTheFrame :
    (∀ f ∈ [0x08#8, 0x20#8], ∃ s : State, s.req.hdrIn.flags = some f ∧ (f.getLsbD 3 || f.getLsbD 5) = true) ∧
    ∃ (s : State) (f : Byte) (h : Header) (b : Bytes), s.req.hdrIn.flags = some f ∧ (f.getLsbD 3 || f.getLsbD 5) = false ∧
      s.req.hdrIn = HeaderReg.of h ∧ s.req.bufIn = some b :=
  ⟨fun f hf => ⟨at100 { hdrIn := hdr 0#32 1#8 f 1#32 }, rfl, by revert f; decide⟩,
    ⟨at100 { hdrIn := hdr 99#32 0#8 0xD7#8 0#32, bufIn := some blk }, _, _, _, rfl, by decide, rfl, rfl⟩⟩

theorem witness_HeadersFrameRoundTrip :
    ∃ (s : State) (h : Header) (es eh : Bool) (b : Bytes), s.req.hdrIn = HeaderReg.of h ∧ h.flags &&& 0x28#8 = 0#8 ∧
      s.req.esIn = some es ∧ s.req.ehIn = some eh ∧ s.req.bufIn = some b :=
  ⟨at100 { hdrIn := hdr 0#32 1#8 0xD7#8 1#32, esIn := some false, ehIn := some true, bufIn := some blk }, _, _, _, _, rfl,
    by decide, rfl, rfl, rfl⟩

/-- Bit 3 alone, and every bit but it. -/
theorem witness_DataEncBuildsTheHeader :
    (∃ (s : State) (f : Byte), s.req.hdrIn.flags = some f ∧ f.getLsbD 3 = true) ∧
    ∃ (s : State) (f : Byte) (es : Bool) (b : Bytes) (sid : Word), s.req.hdrIn.flags = some f ∧ f.getLsbD 3 = false ∧
      s.req.esIn = some es ∧ s.req.bufIn = some b ∧ s.req.hdrIn.sid = some sid :=
  ⟨⟨at100 { hdrIn := hdr 0#32 0#8 0x08#8 1#32 }, _, rfl, by decide⟩,
    ⟨at100 { hdrIn := { flags := some 0xF7#8, sid := some 1#32 }, esIn := some false, bufIn := some dat }, _, _, _, _, rfl,
      by decide, rfl, rfl, rfl⟩⟩

/-- Bit 3 alone, and every bit but it. -/
theorem witness_DataDecSplitsTheFrame :
    (∃ (s : State) (f : Byte), s.req.hdrIn.flags = some f ∧ f.getLsbD 3 = true) ∧
    ∃ (s : State) (f : Byte) (h : Header) (b : Bytes), s.req.hdrIn.flags = some f ∧ f.getLsbD 3 = false ∧
      s.req.hdrIn = HeaderReg.of h ∧ s.req.bufIn = some b :=
  ⟨⟨at100 { hdrIn := hdr 0#32 0#8 0x08#8 1#32 }, _, rfl, by decide⟩,
    ⟨at100 { hdrIn := hdr 2#32 0#8 0xF7#8 7#32, bufIn := some dat }, _, _, _, rfl, by decide, rfl, rfl⟩⟩

theorem witness_DataFrameRoundTrip :
    ∃ (s : State) (h : Header) (es : Bool) (b : Bytes), s.req.hdrIn = HeaderReg.of h ∧ h.flags &&& 0x08#8 = 0#8 ∧
      s.req.esIn = some es ∧ s.req.bufIn = some b :=
  ⟨at100 { hdrIn := hdr 0#32 0#8 0xF7#8 1#32, esIn := some true, bufIn := some dat }, _, _, _, rfl, by decide, rfl, rfl⟩

/-- Every command is ready, and ends OK, where every request register is written. -/
theorem witness_ReadyCommandsComplete :
    (∀ i : Instr, ready i (at100 allWritten) = true) ∧
    ∀ i : Instr, ∃ t, exec i (at100 allWritten) = .next t ∧ t.resp.status = some 0x00#8 :=
  ⟨by intro i; cases i <;> decide +kernel, fun i => next_of_statusOf (by cases i <;> decide +kernel)⟩

/-- For the frame, rewrite and idempotence statements: a next state with a buffer in. -/
theorem witness_CommandsWriteResponsesOnly :
    ∃ (i : Instr) (s t : State) (b : Bytes), exec i s = .next t ∧ s.req.bufIn = some b :=
  ⟨.writeU24, at100 { bufIn := some blk, valIn := some 1#32 }, _, _, rfl, rfl⟩

/-- An OK end, an end with another code, a fault, a refusal. -/
theorem witness_CommandsRewriteTheResponses :
    (∃ i s t, exec i s = .next t ∧ t.resp.status = some 0x00#8) ∧
    (∃ i s t, exec i s = .next t ∧ t.resp.status = some 0x04#8) ∧
    (∃ i s f, exec i s = .fault f) ∧ ∃ i s u, exec i s = .refused (.capacity u) :=
  ⟨⟨.readU24, at100 { bufIn := some blk }, _, rfl, rfl⟩, ⟨.setDec, at100 { bufIn := some blk }, _, rfl, rfl⟩,
    ⟨.setDec, at100 {}, _, rfl⟩, ⟨.settingsEnc, unit 9 5 { setIn := some set3 }, _, rfl⟩⟩

/-- Two request sets that agree on `BUF_IN` alone. -/
theorem witness_CommandsReadOnlyTheirColumn :
    ∃ (i : Instr) (s : State) (q : Request), (∀ r ∈ readsOf i, Request.agreeOn r s.req q = true) ∧ s.req ≠ q :=
  ⟨.hdrDec, at100 allWritten, { bufIn := some pay18 }, by decide, by decide⟩

/-- A header of four values, one of none, and a move that leaves it whole. -/
theorem witness_WholeHeadersAreReadWhole :
    (∃ (i : Instr) (s t : State), ReqReg.hdrIn ∈ readsOf i ∧ s.req.hdrIn.whole = true ∧ exec i s = .next t ∧
      t.resp.status = some 0x00#8) ∧
    HeaderReg.whole {} = true ∧ HeaderReg.whole { flags := some 0#8, sid := some 1#32 } = false ∧
    ∃ s t : State, (∀ m, s.script.head? = some m → m.writesOneField = false) ∧ s.req.hdrIn.whole = true ∧
      Machine.step s = .next t :=
  ⟨⟨.dataEnc, at100 { hdrIn := hdr 0#32 0#8 0#8 1#32, esIn := some true, bufIn := some dat }, _, by decide, by decide, rfl, rfl⟩,
    by decide, by decide,
    ⟨doing [.fwd] {} { hdrOut := hdr 1#32 2#8 3#8 4#32 }, _, by intro m hm; cases hm; rfl, by decide, rfl⟩⟩

theorem witness_CommandOutcomesAreTheListed :
    (∃ (i : Instr) (s t : State), exec i s = .next t) ∧ ∃ (i : Instr) (c : CodecOutcome), c ∈ outcomesOf i :=
  ⟨⟨.dataDec, at100 allWritten, _, rfl⟩, ⟨.setDec, .unknown, by decide⟩⟩

theorem witness_CommandsAreIdempotent : ∃ (i : Instr) (s t : State), exec i s = .next t :=
  ⟨.hdrDec, at100 { bufIn := some (blk ++ blk ++ blk) }, _, rfl⟩

theorem witness_FaultsMarkAndClear : ∃ (i : Instr) (s : State) (f : Fault), exec i s = .fault f :=
  ⟨.setEnc, at100 { kindIn := some 7#16 }, _, rfl⟩

theorem witness_RefusalsMarkAndClear : ∃ u, exec .settingsDec (unit 100 1 { bufIn := some pay18 }) = .refused (.capacity u) :=
  refused_of_isCapacity (by decide +kernel)

theorem witness_UnwrittenRequestsFault :
    (∀ i : Instr, readsBottom i (at100 {}) = true) ∧
    ∃ (s : State) (r : RespReg) (rest : List HostMove), s.script = .rd r :: rest ∧ s.resp.holds r = false :=
  ⟨by intro i; cases i <;> decide, ⟨doing [.rd .hdrOut], .hdrOut, [], rfl, by decide⟩⟩

theorem witness_NoneSentinelReadsNoValue :
    ∃ (s : State) (b : Bytes), s.req.kindIn = some 0#16 ∧ s.req.bufIn = some b ∧ s.req.valIn = none :=
  ⟨at100 { kindIn := some 0#16, bufIn := some [0xAB#8] }, _, rfl, rfl, rfl⟩

/-- The two sides of the three statements that say exactly when: something on each side. -/
theorem witness_ExactStops :
    (∃ i s w u, exec i s = .fault (.precondition w u)) ∧ (∃ i s u, exec i s = .fault (.illegalOperand u)) ∧
    ∃ i s r, exec i s = .refused r :=
  ⟨⟨.readU31, at100 { bufIn := some blk }, _, _, rfl⟩, ⟨.settingsEnc, at100 { setIn := some [⟨0xFFFF#16, 0#32⟩] }, _, rfl⟩,
    ⟨.setEnc, unit 10 1 { kindIn := some 1#16, valIn := some 1#32, bufIn := some dat }, _, rfl⟩⟩

/-- The last four bytes of a buffer. -/
theorem witness_BufferWritesAreBigEndian : ∃ (b : Bytes) (a : Nat), a + 4 ≤ b.length := ⟨dat, 1, by decide⟩

theorem witness_ResetLeavesEveryRegisterBottom : ∃ (s : State) (rest : List HostMove), s.script = .reset :: rest :=
  ⟨doing [.reset] allWritten, [], rfl⟩

/-- One move of each kind of host write the statement names; a list that just fits, and one entry too long. -/
theorem witness_HostWritesAreModuloWidth :
    (∀ x : ReqWrite, ∃ s : State, s.script = [.wr x]) ∧
    (∃ (s : State) (rest : List HostMove) (es : List (Nat × Nat)),
      s.script = .wr (.setIn es) :: rest ∧ es.length ≤ s.cfg.setCapacity) ∧
    ∃ (s : State) (rest : List HostMove) (es : List (Nat × Nat)),
      s.script = .wr (.setIn es) :: rest ∧ s.cfg.setCapacity < es.length :=
  ⟨fun x => ⟨doing [.wr x], rfl⟩,
    ⟨doing [.wr (.setIn (List.replicate 5 (65539, 4294967296)))], [], List.replicate 5 (65539, 4294967296), rfl, by decide⟩,
    ⟨doing [.wr (.setIn (List.replicate 6 (1, 1)))], [], List.replicate 6 (1, 1), rfl, by decide⟩⟩

/-- A unit of 5 bytes with a move of the host, and the response registers a source may read. -/
def placing (src : BufSource) : State :=
  { unit 5 1 {} with script := [.wr (.bufIn src)], resp := { hdrOut := { len := some 3#32 }, bufOut := some dat } }

/-- Each source with bytes that just fit, bytes one too many, `⊥` in each register a source reads, and slices one past the end or
with their ends swapped. -/
theorem witness_HostWritesPlaceTheSourcesBytes :
    ((∃ b, (BufSource.lit dat).names (placing (.lit dat)).resp b ∧ b.length ≤ 5) ∧
      (∃ b, BufSource.bufOut.names (placing .bufOut).resp b ∧ b.length ≤ 5) ∧
      (∃ b, (BufSource.bufOutSlice 1 5).names (placing .bufOut).resp b ∧ b.length ≤ 5) ∧
      (∃ b, (BufSource.slice dat 2 2).names (placing .bufOut).resp b ∧ b.length ≤ 5) ∧
      ∃ b, (BufSource.payload (blk ++ blk ++ blk ++ blk)).names (placing .bufOut).resp b ∧ b.length ≤ 5) ∧
    (∃ b, (BufSource.lit (0#8 :: dat)).names (placing (.lit (0#8 :: dat))).resp b ∧ 5 < b.length) ∧
    (BufSource.bufOut.bottom {} = true ∧ (BufSource.bufOutSlice 0 0).bottom {} = true ∧ (BufSource.payload blk).bottom {} = true) ∧
    (∀ src ∈ [BufSource.slice dat 1 6, BufSource.slice dat 2 1, BufSource.bufOutSlice 1 6, BufSource.payload (blk ++ blk ++ dat)],
      src.bottom (placing src).resp = false ∧ ∀ b, ¬ src.names (placing src).resp b) := by
  refine ⟨⟨⟨dat, rfl, by decide⟩, ⟨dat, rfl, by decide⟩, ⟨dat.drop 1, ⟨dat, rfl, [0x68#8], [], rfl, rfl, rfl⟩, by decide⟩,
    ⟨[], ⟨dat.take 2, dat.drop 2, rfl, rfl, rfl⟩, by decide⟩, ⟨blk, ⟨3#32, rfl, blk ++ blk ++ blk, [], rfl, rfl, rfl⟩, by decide⟩⟩,
    ⟨_, rfl, by decide⟩, ⟨rfl, rfl, rfl⟩, ?_⟩
  intro src hsrc
  fin_cases hsrc
  · exact ⟨rfl, fun b hb => absurd (sliceOf_eq_some.mpr hb) (by simp [sliceOf, dat])⟩
  · exact ⟨rfl, fun b hb => absurd (sliceOf_eq_some.mpr hb) (by simp [sliceOf])⟩
  · refine ⟨rfl, ?_⟩
    rintro b ⟨w, hw, hb⟩
    cases hw
    exact absurd (sliceOf_eq_some.mpr hb) (by simp [sliceOf, dat])
  · refine ⟨rfl, ?_⟩
    rintro b ⟨len, hl, hb⟩
    cases hl
    exact absurd (sliceOf_eq_some.mpr hb) (by simp [sliceOf, dat, blk])

theorem witness_OutputsNeverAliasInputs :
    (∃ (s t : State) (x : ReqWrite) (rest : List HostMove), s.script = .wr x :: rest ∧ Machine.step s = .next t) ∧
    ∃ (s t : State) (n : Nat) (rest : List HostMove), s.script = .cmd n :: rest ∧ Machine.step s = .next t :=
  ⟨⟨doing [.wr (.bufIn (.lit blk))] {} { bufOut := some dat }, _, _, [], rfl, rfl⟩,
    ⟨doing [.cmd 1] { bufIn := some blk }, _, _, [], rfl, rfl⟩⟩

/-- `⊥`, and a value. -/
theorem witness_HostReadsOfBottomFault :
    (∃ (s : State) (r : RespReg) (rest : List HostMove), s.script = .rd r :: rest ∧ s.resp.holds r = false) ∧
    ∃ (s : State) (r : RespReg) (rest : List HostMove), s.script = .rd r :: rest ∧ s.resp.holds r = true :=
  ⟨⟨doing [.rd .hdrOut] {} { hdrOut := { len := some 1#32 } }, _, _, rfl, by decide⟩,
    ⟨doing [.rd .bufOut] {} { bufOut := some [] }, _, _, rfl, by decide⟩⟩

/-- A whole header, and one with three of its fields. -/
theorem witness_ForwardCopiesTheHeader :
    (∃ (s : State) (rest : List HostMove) (h : Header), s.script = .fwd :: rest ∧ s.resp.hdrOut = HeaderReg.of h) ∧
    ∃ (s : State) (rest : List HostMove), s.script = .fwd :: rest ∧ s.resp.hdrOut.value = none :=
  ⟨⟨doing [.fwd] {} { hdrOut := hdr 1#32 2#8 3#8 4#32 }, [], _, rfl, rfl⟩,
    ⟨doing [.fwd] {} { hdrOut := { len := some 1#32, type := some 2#8, flags := some 3#8 } }, [], rfl, rfl⟩⟩

theorem witness_MarksStick :
    (∃ s f, Machine.step s = .fault f) ∧ (∃ s u, Machine.step s = .refused (.capacity u)) ∧
    (∃ s t : State, s.script.head? ≠ some .reset ∧ Machine.step s = .next t ∧ s.faulted = true) ∧
    ∃ s t : State, s.script.head? = some .reset ∧ Machine.step s = .next t ∧ s.faulted = true :=
  ⟨⟨doing [.fwd], _, rfl⟩, ⟨{ unit 9 5 { setIn := some set3 } with script := [.cmd 0x30] }, _, rfl⟩,
    ⟨{ doing [.cmd 1] { bufIn := some blk } with faulted := true }, _, by decide, rfl, rfl⟩,
    ⟨{ doing [.reset] with faulted := true }, _, rfl, rfl, rfl⟩⟩

theorem witness_OnlyCommandsWriteResponses :
    ∃ s t : State, (∀ n, s.script.head? ≠ some (.cmd n)) ∧ s.script.head? ≠ some .reset ∧ Machine.step s = .next t :=
  ⟨doing [.wr (.valIn 1)], _, by intro n; simp [doing], by decide, rfl⟩

/-- Each of the three frame types, with a payload. -/
theorem witness_SendPutsHeaderBeforePayload :
    ∀ f : FrameKind, ∃ (s t : State) (h : Header) (p : Bytes), exec (frameEnc f) s = .next t ∧ t.resp.hdrOut = HeaderReg.of h ∧
      t.resp.bufOut = some p ∧ h.len.toNat < 2 ^ 24 := by
  intro f
  cases f <;> exact ⟨at100 allWritten, _, _, _, rfl, rfl, rfl, by decide +kernel⟩

/-- P1's frame: 18 payload bytes. -/
theorem witness_RecvDecodesTheDelimitedPayload :
    ∃ (s : State) (h : Header) (p : Bytes), h.len.toNat < 2 ^ 24 ∧ p.length = h.len.toNat ∧ 9 ≤ s.cfg.bufCapacity ∧
      p.length ≤ s.cfg.bufCapacity :=
  ⟨unit 18 3 {}, { len := 18#32, type := 4#8, flags := 0#8, sid := 0x80000001#32 }, pay18, by decide, by decide, by decide, by decide⟩

/-- A command's step, and a state with a response in it, that meet the invariant. -/
theorem witness_StepsKeepTheInvariant :
    (∃ s t : State, s.inv = true ∧ s.script = [.cmd 0x51] ∧ Machine.step s = .next t) ∧
    ∃ s : State, s.inv = true ∧ s.resp ≠ {} :=
  ⟨⟨doing [.cmd 0x51] { hdrIn := hdr 5#32 0#8 0#8 1#32, bufIn := some dat }, _, by decide +kernel, rfl, rfl⟩,
    ⟨doing [] allWritten { status := some 0#8, bufOut := some dat }, by decide +kernel, by decide⟩⟩

/-- A command's fault and refusal; a step's fault for an illegal word, a host read and a forward of `⊥`, and its refusal. -/
theorem witness_StopsKeepTheInvariant :
    (∃ (i : Instr) (s : State) (f : Fault), s.inv = true ∧ exec i s = .fault f) ∧
    (∃ (i : Instr) (s u : State), s.inv = true ∧ exec i s = .refused (.capacity u)) ∧
    (∀ m ∈ [HostMove.cmd 0x12, .rd .status, .fwd], ∃ (s : State) (f : Fault), s.inv = true ∧ s.script = [m] ∧
      Machine.step s = .fault f) ∧
    ∃ s u : State, s.inv = true ∧ Machine.step s = .refused (.capacity u) := by
  refine ⟨⟨.readU24, at100 { bufIn := some [] }, _, by decide, rfl⟩,
    ⟨.settingsEnc, unit 9 5 { setIn := some set3 }, _, by decide +kernel, rfl⟩, ?_,
    ⟨{ unit 9 5 { setIn := some set3 } with script := [.cmd 0x30] }, _, by decide +kernel, rfl⟩⟩
  intro m hm
  refine ⟨doing [m], ?_⟩
  fin_cases hm <;> exact ⟨_, by decide, rfl, rfl⟩

theorem witness_EncodedLengthIsThePayloads :
    ∀ f : FrameKind, ∃ (s t : State) (len : Word) (p : Bytes), s.inv = true ∧ exec (frameEnc f) s = .next t ∧
      t.resp.hdrOut.len = some len ∧ t.resp.bufOut = some p := by
  intro f
  cases f <;> exact ⟨at100 allWritten, _, _, _, by decide +kernel, rfl, rfl, rfl⟩

/-- Two units, each with a move to make. -/
theorem witness_UnitsDoNotInterfere :
    ∃ (y z w : System) (j k : Nat), j ≠ k ∧ System.step j y = .next z ∧ System.step k z = .next w :=
  ⟨{ units := [doing [.wr (.valIn 1)], doing [.cmd 1] { bufIn := some blk }] }, _, _, 0, 1, by decide, rfl, rfl⟩

end Sys2Proof.Tests
end

section
/-! What a command or a host write that ends leaves behind, and from it the invariant of a unit (R6, R23, R30, R34, R50, R51). -/

namespace Sys2Proof.Machine

/-! ### The two ways a command ends -/

/-- What `done` leaves of the state `s` a command started in: the responses `r` beside STATUS OK (R10). -/
def State.endsOk (s : State) (r : Response) : State := { s with resp := { r with status := some (outcomeCode .ok) } }

/-- What `raise` leaves of the state `s` a command started in: the code of `c` alone (R10, R30). -/
def State.endsWith (s : State) (c : CodecOutcome) : State := { s with resp := { status := some (outcomeCode c) } }

@[simp] theorem State.endsOk_resp (s : State) (r : Response) :
    (s.endsOk r).resp = { r with status := some (outcomeCode .ok) } := rfl

@[simp] theorem State.endsWith_resp (s : State) (c : CodecOutcome) :
    (s.endsWith c).resp = { status := some (outcomeCode c) } := rfl

@[simp] theorem finish_beginCommand_next {s t : State} {r : Response} :
    finish s.beginCommand r = .next t ↔ t = s.endsOk r :=
  finish_next

@[simp] theorem raiseOutcome_beginCommand_next {c : CodecOutcome} {s t : State} :
    raiseOutcome c s.beginCommand = .next t ↔ t = s.endsWith c :=
  raiseOutcome_next

@[simp] theorem takeFault_ne_next {g : State → Fault} {s t : State} : takeFault g s ≠ .next t := by
  simp [takeFault]

@[simp] theorem takeRefusal_ne_next {g : State → Refusal} {s t : State} : takeRefusal g s ≠ .next t := by
  simp [takeRefusal]

theorem needHeader_next {r : HeaderReg} {s t : State} {k : Header → Out} :
    needHeader r s k = .next t ↔ ∃ h, r = HeaderReg.of h ∧ k h = .next t := by
  simp only [needHeader_eq, need_next, HeaderReg.value_eq_some]

/-! ### What each command that ends read, tested and left, in the order of its reads and tests (R100 to R152, R177) -/

theorem execReadU24_next {s t : State} :
    execReadU24 s = .next t ↔
      ∃ b, s.req.bufIn = some b ∧ 3 ≤ b.length ∧ t = s.endsOk { valOut := some (BitVec.ofNat 32 (memRead b 0 3)) } := by
  simp [execReadU24, need_next, ite_eq_iff]

theorem execWriteU24_next {s t : State} :
    execWriteU24 s = .next t ↔
      ∃ b, s.req.bufIn = some b ∧ 3 ≤ b.length ∧ ∃ v, s.req.valIn = some v ∧ v.toNat < 2 ^ 24 ∧
        t = s.endsOk { bufOut := some (memWrite b 0 3 v.toNat) } := by
  simp [execWriteU24, need_next, ite_eq_iff]

theorem execReadU31_next {s t : State} :
    execReadU31 s = .next t ↔
      ∃ b, s.req.bufIn = some b ∧ 4 ≤ b.length ∧
        t = s.endsOk { valOut := some (BitVec.ofNat 32 (memRead b 0 4) &&& sidMask) } := by
  simp [execReadU31, need_next, ite_eq_iff]

theorem execWriteU31_next {s t : State} :
    execWriteU31 s = .next t ↔
      ∃ b, s.req.bufIn = some b ∧ 4 ≤ b.length ∧ ∃ v, s.req.valIn = some v ∧
        t = s.endsOk { bufOut := some (memWrite b 0 4 (v &&& sidMask).toNat) } := by
  simp [execWriteU31, need_next, ite_eq_iff]

theorem execHdrEnc_next {s t : State} :
    execHdrEnc s = .next t ↔
      ∃ len, s.req.hdrIn.len = some len ∧
        (2 ^ 24 ≤ len.toNat ∧ t = s.endsWith .frameTooBig ∨
          len.toNat < 2 ^ 24 ∧ ∃ type, s.req.hdrIn.type = some type ∧ ∃ flags, s.req.hdrIn.flags = some flags ∧
            ∃ sid, s.req.hdrIn.sid = some sid ∧
              t = s.endsOk { bufOut := some (encodeHeader { len := len, type := type, flags := flags, sid := sid }) }) := by
  simp [execHdrEnc, need_next, ite_eq_iff]

theorem execHdrDec_next {s t : State} :
    execHdrDec s = .next t ↔
      ∃ b, s.req.bufIn = some b ∧
        (b.length < 9 ∧ t = s.endsWith .shortHeader ∨
          9 ≤ b.length ∧ t = s.endsOk { hdrOut := HeaderReg.of (decodeHeader b) }) := by
  simp [execHdrDec, need_next, ite_eq_iff]

theorem execSetEnc_next {s t : State} :
    execSetEnc s = .next t ↔
      ∃ k, s.req.kindIn = some k ∧
        (k.toNat = 0 ∧ (∃ b, s.req.bufIn = some b ∧ t = s.endsOk { bufOut := some b }) ∨
          k.toNat ≠ 0 ∧ k.toNat ≤ 6 ∧ ∃ v, s.req.valIn = some v ∧ ∃ b, s.req.bufIn = some b ∧
            b.length + 6 ≤ s.cfg.bufCapacity ∧
            t = s.endsOk { bufOut := some (memAppend (memAppend b k.toNat 2) (settingValue k.toNat v.toNat) 4) }) := by
  simp only [execSetEnc, need_next, ite_eq_iff, State.beginCommand_req, finish_beginCommand_next, copyIn_eq,
    takeFault_ne_next, takeRefusal_ne_next, and_false, false_or, Nat.not_lt, ne_eq]

theorem execSetDec_next {s t : State} :
    execSetDec s = .next t ↔
      ∃ b, s.req.bufIn = some b ∧
        (b.length < 6 ∧ t = s.endsWith .invalid ∨
          6 ≤ b.length ∧ (decodeRecord b 0 = none ∧ t = s.endsWith .unknown ∨
            ∃ e, decodeRecord b 0 = some e ∧ t = s.endsOk { kindOut := some e.kind, valOut := some e.val })) := by
  simp only [execSetDec, need_next, ite_eq_iff, State.beginCommand_req, raiseOutcome_beginCommand_next, Nat.not_lt]
  refine exists_congr fun b => and_congr_right fun _ => or_congr_right (and_congr_right fun _ => ?_)
  cases decodeRecord b 0 <;> simp

theorem execSettingsEnc_next {s t : State} :
    execSettingsEnc s = .next t ↔
      ∃ l, s.req.setIn = some l ∧ ∃ p, encodeSettings l = some p ∧ p.length ≤ s.cfg.bufCapacity ∧
        ∃ ack, s.req.ackIn = some ack ∧
          t = s.endsOk
            { hdrOut := HeaderReg.of
                { len := BitVec.ofNat 32 p.length, type := typeSettings, flags := settingsFlags ack, sid := 0#32 }
              bufOut := some p } := by
  simp only [execSettingsEnc, need_next, State.beginCommand_req]
  refine exists_congr fun l => and_congr_right fun _ => ?_
  cases encodeSettings l <;> simp [need_next, ite_eq_iff]

theorem execSettingsDec_next {s t : State} :
    execSettingsDec s = .next t ↔
      ∃ b, s.req.bufIn = some b ∧
        (b.length % 6 ≠ 0 ∧ t = s.endsWith .shortFrame ∨
          b.length % 6 = 0 ∧ (decodeSettings (b.length / 6) b).length ≤ s.cfg.setCapacity ∧
            ∃ h, s.req.hdrIn = HeaderReg.of h ∧
              t = s.endsOk
                { hdrOut := HeaderReg.of h
                  ackOut := some (hasFlag h.flags flagAck)
                  setOut := some (decodeSettings (b.length / 6) b) }) := by
  have hshort : ∀ b : Bytes, (b.length ≠ 0 ∧ b.length % 6 ≠ 0) ↔ b.length % 6 ≠ 0 := fun b => by omega
  simp only [execSettingsDec, need_next, needHeader_next, ite_eq_iff, hshort, State.beginCommand_req,
    raiseOutcome_beginCommand_next, finish_beginCommand_next, takeRefusal_ne_next, and_false, false_or, Nat.not_lt, not_not]

theorem execHeadersEnc_next {s t : State} :
    execHeadersEnc s = .next t ↔
      ∃ f, s.req.hdrIn.flags = some f ∧
        (headersUnsupported f = true ∧ t = s.endsWith .notImplemented ∨
          headersUnsupported f = false ∧ ∃ es, s.req.esIn = some es ∧ ∃ eh, s.req.ehIn = some eh ∧
            ∃ b, s.req.bufIn = some b ∧ ∃ sid, s.req.hdrIn.sid = some sid ∧
              t = s.endsOk
                { hdrOut := HeaderReg.of
                    { len := BitVec.ofNat 32 b.length, type := typeHeaders, flags := headersFlags f es eh, sid := sid }
                  bufOut := some b }) := by
  simp [execHeadersEnc, need_next, ite_eq_iff]

theorem execHeadersDec_next {s t : State} :
    execHeadersDec s = .next t ↔
      ∃ f, s.req.hdrIn.flags = some f ∧
        (headersUnsupported f = true ∧ t = s.endsWith .notImplemented ∨
          headersUnsupported f = false ∧ ∃ h, s.req.hdrIn = HeaderReg.of h ∧ ∃ b, s.req.bufIn = some b ∧
            t = s.endsOk
              { hdrOut := HeaderReg.of h
                esOut := some (hasFlag f flagEndStream)
                ehOut := some (hasFlag f flagEndHeaders)
                bufOut := some b }) := by
  simp [execHeadersDec, need_next, needHeader_next, ite_eq_iff]

theorem execDataEnc_next {s t : State} :
    execDataEnc s = .next t ↔
      ∃ f, s.req.hdrIn.flags = some f ∧
        (dataUnsupported f = true ∧ t = s.endsWith .notImplemented ∨
          dataUnsupported f = false ∧ ∃ es, s.req.esIn = some es ∧ ∃ b, s.req.bufIn = some b ∧
            ∃ sid, s.req.hdrIn.sid = some sid ∧
              t = s.endsOk
                { hdrOut := HeaderReg.of
                    { len := BitVec.ofNat 32 b.length, type := typeData, flags := dataFlags f es, sid := sid }
                  bufOut := some b }) := by
  simp [execDataEnc, need_next, ite_eq_iff]

theorem execDataDec_next {s t : State} :
    execDataDec s = .next t ↔
      ∃ f, s.req.hdrIn.flags = some f ∧
        (dataUnsupported f = true ∧ t = s.endsWith .notImplemented ∨
          dataUnsupported f = false ∧ ∃ h, s.req.hdrIn = HeaderReg.of h ∧ ∃ b, s.req.bufIn = some b ∧
            t = s.endsOk { hdrOut := HeaderReg.of h, esOut := some (hasFlag f flagEndStream), bufOut := some b }) := by
  simp [execDataDec, need_next, needHeader_next, ite_eq_iff]

/-! ### Decoded settings -/

/-- A decoded record is a setting as the unit writes it (R29, R122). -/
theorem decodeRecord_decoded {b : Bytes} {a : Nat} {e : Setting} (h : decodeRecord b a = some e) : e.decoded = true := by
  obtain ⟨hkind, hlo, hhi, hval⟩ := decodeRecord_some h
  have hknown : knownSetting e.kind.toNat = true := by simp [knownSetting]; omega
  have hbool : e.kind = 2#16 → e.val = 0#32 ∨ e.val = 1#32 := fun hpush => by
    have hid : memRead b a 2 = 2 := by rw [← hkind, hpush]; rfl
    rw [hid, settingValue, if_pos rfl] at hval
    split at hval
    · exact .inr (BitVec.eq_of_toNat_eq hval)
    · exact .inl (BitVec.eq_of_toNat_eq hval)
  simpa [Setting.decoded, hknown, or_assoc, imp_iff_not_or] using hbool

theorem decodeSettings_decoded {n : Nat} {b : Bytes} : ∀ e ∈ decodeSettings n b, e.decoded = true := by
  induction n generalizing b with
  | zero => simp [decodeSettings]
  | succ n ih =>
    intro e he
    simp only [decodeSettings, List.mem_append, Option.mem_toList] at he
    rcases he with he | he
    · exact decodeRecord_decoded he
    · exact ih e he

/-! ### The invariant where a command ends -/

theorem Response.valuesOk_iff {c : Config} {p : Response} :
    p.valuesOk c = true ↔
      p.status.all (fun v => decide (v.toNat ≤ 6)) = true ∧
      p.bufOut.all (Memory.wf c.bufCapacity) = true ∧
      p.setOut.all (fun l => decide (l.length ≤ c.setCapacity) && l.all Setting.decoded) = true ∧
      p.kindOut.all (fun k => p.valOut.all fun v => Setting.decoded { kind := k, val := v }) = true := by
  simp only [Response.valuesOk, Bool.and_eq_true, and_assoc]

theorem State.inv_endsWith {s : State} {c : CodecOutcome} (hs : s.inv = true) : (s.endsWith c).inv = true := by
  obtain ⟨hcfg, hreq, -, -⟩ := State.inv_iff.mp hs
  exact State.inv_iff.mpr ⟨hcfg, hreq, Response.valuesOk_status _ c, by simp [Response.noPartial]⟩

/-- Where a command ends OK, the invariant asks something of the values it wrote only. -/
theorem State.inv_endsOk {s : State} {r : Response} (hs : s.inv = true)
    (hbuf : r.bufOut.all (Memory.wf s.cfg.bufCapacity) = true)
    (hset : r.setOut.all (fun l => decide (l.length ≤ s.cfg.setCapacity) && l.all Setting.decoded) = true)
    (hkind : r.kindOut.all (fun k => r.valOut.all fun v => Setting.decoded { kind := k, val := v }) = true) :
    (s.endsOk r).inv = true := by
  obtain ⟨hcfg, hreq, -, -⟩ := State.inv_iff.mp hs
  exact State.inv_iff.mpr
    ⟨hcfg, hreq, Response.valuesOk_iff.mpr ⟨rfl, hbuf, hset, hkind⟩, by simp [Response.noPartial]⟩

/-- A buffer is the one value a command writes beside a header and flags that has to fit. -/
theorem State.inv_endsOk_bufOut {s : State} {r : HeaderReg} {es eh : Option Bool} {b : Bytes} (hs : s.inv = true)
    (hb : b.length ≤ s.cfg.bufCapacity) :
    (s.endsOk { hdrOut := r, esOut := es, ehOut := eh, bufOut := some b }).inv = true :=
  State.inv_endsOk hs (Memory.wf_iff.mpr hb) rfl rfl

/-- Nothing has to fit in a command's header and value. -/
theorem State.inv_endsOk_valOut {s : State} {r : HeaderReg} {v : Option Word} (hs : s.inv = true) :
    (s.endsOk { hdrOut := r, valOut := v }).inv = true :=
  State.inv_endsOk hs rfl rfl rfl

theorem encodeHeader_length (h : Header) : (encodeHeader h).length = 9 := by
  simp [encodeHeader]

/-- The invariant bounds `BUF_IN`, wherever it holds a value (R50). -/
theorem State.inv_bufIn_le {s : State} {b : Bytes} (hs : s.inv = true) (hb : s.req.bufIn = some b) :
    b.length ≤ s.cfg.bufCapacity :=
  Request.bufIn_le (State.inv_iff.mp hs).2.1 hb

/-- Every command that ends keeps the invariant (R23, R30). -/
theorem exec_inv {i : Instr} {s t : State} (hs : s.inv = true) (h : exec i s = .next t) : t.inv = true := by
  cases i with
  | readU24 =>
    obtain ⟨b, -, -, rfl⟩ := execReadU24_next.mp h
    exact State.inv_endsOk_valOut hs
  | writeU24 =>
    obtain ⟨b, hb, hlen, v, -, -, rfl⟩ := execWriteU24_next.mp h
    exact State.inv_endsOk_bufOut hs ((memWrite_length (by omega)).trans_le (State.inv_bufIn_le hs hb))
  | readU31 =>
    obtain ⟨b, -, -, rfl⟩ := execReadU31_next.mp h
    exact State.inv_endsOk_valOut hs
  | writeU31 =>
    obtain ⟨b, hb, hlen, v, -, rfl⟩ := execWriteU31_next.mp h
    exact State.inv_endsOk_bufOut hs ((memWrite_length (by omega)).trans_le (State.inv_bufIn_le hs hb))
  | hdrEnc =>
    obtain ⟨len, -, ⟨-, rfl⟩ | ⟨-, type, -, flags, -, sid, -, rfl⟩⟩ := execHdrEnc_next.mp h
    · exact State.inv_endsWith hs
    · obtain ⟨hcap, -⟩ := cfgWf_iff.mp (State.inv_iff.mp hs).1
      exact State.inv_endsOk_bufOut hs ((encodeHeader_length _).trans_le hcap)
  | hdrDec =>
    obtain ⟨b, -, ⟨-, rfl⟩ | ⟨-, rfl⟩⟩ := execHdrDec_next.mp h
    · exact State.inv_endsWith hs
    · exact State.inv_endsOk_valOut hs
  | setEnc =>
    obtain ⟨k, -, ⟨-, b, hb, rfl⟩ | ⟨-, -, v, -, b, -, hfit, rfl⟩⟩ := execSetEnc_next.mp h
    · exact State.inv_endsOk_bufOut hs (State.inv_bufIn_le hs hb)
    · exact State.inv_endsOk_bufOut hs (by simpa using hfit)
  | setDec =>
    obtain ⟨b, -, ⟨-, rfl⟩ | ⟨-, ⟨-, rfl⟩ | ⟨e, he, rfl⟩⟩⟩ := execSetDec_next.mp h
    · exact State.inv_endsWith hs
    · exact State.inv_endsWith hs
    · exact State.inv_endsOk hs rfl rfl (decodeRecord_decoded he)
  | settingsEnc =>
    obtain ⟨l, -, p, -, hfit, ack, -, rfl⟩ := execSettingsEnc_next.mp h
    exact State.inv_endsOk_bufOut hs hfit
  | settingsDec =>
    obtain ⟨b, -, ⟨-, rfl⟩ | ⟨-, hfit, x, -, rfl⟩⟩ := execSettingsDec_next.mp h
    · exact State.inv_endsWith hs
    · refine State.inv_endsOk hs rfl ?_ rfl
      simpa [hfit] using decodeSettings_decoded
  | headersEnc =>
    obtain ⟨f, -, ⟨-, rfl⟩ | ⟨-, es, -, eh, -, b, hb, sid, -, rfl⟩⟩ := execHeadersEnc_next.mp h
    · exact State.inv_endsWith hs
    · exact State.inv_endsOk_bufOut hs (State.inv_bufIn_le hs hb)
  | headersDec =>
    obtain ⟨f, -, ⟨-, rfl⟩ | ⟨-, x, -, b, hb, rfl⟩⟩ := execHeadersDec_next.mp h
    · exact State.inv_endsWith hs
    · exact State.inv_endsOk_bufOut hs (State.inv_bufIn_le hs hb)
  | dataEnc =>
    obtain ⟨f, -, ⟨-, rfl⟩ | ⟨-, es, -, b, hb, sid, -, rfl⟩⟩ := execDataEnc_next.mp h
    · exact State.inv_endsWith hs
    · exact State.inv_endsOk_bufOut hs (State.inv_bufIn_le hs hb)
  | dataDec =>
    obtain ⟨f, -, ⟨-, rfl⟩ | ⟨-, x, -, b, hb, rfl⟩⟩ := execDataDec_next.mp h
    · exact State.inv_endsWith hs
    · exact State.inv_endsOk_bufOut hs (State.inv_bufIn_le hs hb)

/-! ### The invariant where a host move ends -/

/-- The invariant asks nothing of the host's own fields (log entries 3, 10). -/
@[simp] theorem State.inv_withScript (s : State) (rest : List HostMove) : { s with script := rest }.inv = s.inv := rfl

@[simp] theorem State.inv_withSeen (s : State) (vs : List RegVal) : { s with seen := vs }.inv = s.inv := rfl

/-- `CMD` has no capacity. -/
@[simp] theorem State.inv_withCmd (s : State) (w : Byte) : (s.withCmd w).inv = s.inv := rfl

theorem State.inv_withReq {s : State} {q : Request} (hs : s.inv = true) (hq : q.withinCapacity s.cfg = true) :
    { s with req := q }.inv = true := by
  obtain ⟨hcfg, -, hvalues, hpartial⟩ := State.inv_iff.mp hs
  exact State.inv_iff.mpr ⟨hcfg, hq, hvalues, hpartial⟩

theorem Request.withinCapacity_iff {c : Config} {q : Request} :
    q.withinCapacity c = true ↔
      q.bufIn.all (Memory.wf c.bufCapacity) = true ∧ q.setIn.all (fun l => decide (l.length ≤ c.setCapacity)) = true := by
  simp [Request.withinCapacity]

/-- A write of `BUF_IN` that ends put bytes there that fit, whatever its source (R50, R176). -/
theorem writeBufIn_next {src : BufSource} {s t : State} (h : writeBufIn src s = .next t) :
    ∃ b, b.length ≤ s.cfg.bufCapacity ∧ t = { s with req := { s.req with bufIn := some b } } := by
  have hplace : ∃ m bs, placeBufIn m bs s = .next t := by
    cases src <;> simp only [writeBufIn, need_next] at h
    case lit => exact ⟨_, _, h⟩
    case slice => exact ⟨_, _, h⟩
    all_goals
      obtain ⟨_, _, h⟩ := h
      exact ⟨_, _, h⟩
  obtain ⟨m, bs, hput⟩ := hplace
  obtain ⟨b, -, hfit, rfl⟩ := placeBufIn_next hput
  exact ⟨b, hfit, rfl⟩

/-- A host write that ends leaves the request registers within capacity (R22, R50, R176). -/
theorem hostWrite_withinCapacity {x : ReqWrite} {s t : State} (hs : s.req.withinCapacity s.cfg = true)
    (h : hostWrite x s = .next t) : t.req.withinCapacity s.cfg = true := by
  obtain ⟨hbuf, hset⟩ := Request.withinCapacity_iff.mp hs
  cases x with
  | bufIn src =>
    obtain ⟨b, hfit, rfl⟩ := writeBufIn_next h
    exact Request.withinCapacity_iff.mpr ⟨Memory.wf_iff.mpr hfit, hset⟩
  | setIn es =>
    simp only [hostWrite, noSuchMove, ite_eq_iff, reduceCtorEq, and_false, false_or, Host.Outcome.next.injEq] at h
    obtain ⟨hfit, rfl⟩ := h
    exact Request.withinCapacity_iff.mpr ⟨hbuf, by simpa using hfit⟩
  | _ =>
    cases h
    exact hs

theorem State.inv_afterReset {s : State} (hs : s.inv = true) : s.afterReset.inv = true := by
  obtain ⟨hcfg, -, -, -⟩ := State.inv_iff.mp hs
  exact State.inv_iff.mpr ⟨hcfg, rfl, rfl, rfl⟩

/-- Every host move that ends keeps the invariant, and with it every command the host issues (R20). -/
theorem performMove_inv {m : HostMove} {s t : State} (hs : s.inv = true) (h : performMove m s = .next t) : t.inv = true := by
  obtain ⟨-, hreq, -, -⟩ := State.inv_iff.mp hs
  cases m with
  | cmd w =>
    obtain ⟨i, -, hi⟩ := issueCommand_next.mp h
    exact exec_inv (by simpa using hs) hi
  | wr x =>
    have hreq' := hostWrite_withinCapacity hreq h
    obtain ⟨q, rfl⟩ := hostWrite_next h
    exact State.inv_withReq hs hreq'
  | fwd =>
    obtain ⟨x, -, rfl⟩ := forwardHeader_next.mp h
    exact State.inv_withReq hs hreq
  | rd r =>
    obtain ⟨v, -, rfl⟩ := hostRead_next.mp h
    simpa using hs
  | reset =>
    obtain rfl : s.afterReset = t := by simpa [performMove] using h
    exact State.inv_afterReset hs

/-! ### The obligations -/

/-- Settles O54: a step is nothing or the host's next move, and every move that ends keeps the invariant. -/
theorem stepsKeepTheInvariant : Obligations.StepsKeepTheInvariant := by
  intro s t hs h
  obtain ⟨-, rfl⟩ | ⟨m, rest, -, hm⟩ := step_next.mp h
  · exact hs
  · exact performMove_inv (by simpa using hs) hm

/-- Settles O55: the parameters lie in the ranges of R6, and no register holds a value that could break a bound (R190). -/
theorem resetMeetsTheInvariant : Obligations.ResetMeetsTheInvariant :=
  ⟨State.inv_iff.mpr ⟨Config.given_wf, rfl, rfl, rfl⟩, rfl⟩

end Sys2Proof.Machine
end

section
/-! What a command that ends or stops leaves, and what it reads: its frame, the responses it writes, and R24's columns. -/

namespace Sys2Proof.Machine

/-! ### Setting records over bytes and over registers (R29, R75) -/

/-- Bytes put together are a big-endian number (R53). -/
theorem toNat_append_eq {m n : Nat} (x : BitVec m) (y : BitVec n) :
    (x ++ y).toNat = x.toNat * 2 ^ n + y.toNat := by
  rw [BitVec.toNat_append, ← Nat.shiftLeft_add_eq_or_of_lt y.isLt, Nat.shiftLeft_eq]

/-- The value of a setting, written over its register and over its number, is the same (R29, R82). -/
theorem wireValue_eq (k : Half) (v : Word) :
    wireValue { kind := k, val := v } = BitVec.ofNat 32 (settingValue k.toNat v.toNat) := by
  have hkind : k = 2#16 ↔ k.toNat = 2 := BitVec.toNat_inj.symm
  have hval : v = 0#32 ↔ v.toNat = 0 := BitVec.toNat_inj.symm
  simp only [wireValue, settingValue, hkind, hval]
  split
  · split <;> simp [*]
  · simp

/-- The first record of a buffer, read byte by byte or as two numbers, is the same (R75, R122). -/
theorem settingOfWire_take {b : Bytes} (h : 6 ≤ b.length) : settingOfWire (b.take 6) = decodeRecord b 0 := by
  match b, h with
  | i0 :: i1 :: v0 :: v1 :: v2 :: v3 :: rest, _ =>
    have hkind : memRead (i0 :: i1 :: v0 :: v1 :: v2 :: v3 :: rest) 0 2 = (i0 ++ i1).toNat := by
      have happend := toNat_append_eq i0 i1
      simp [memRead, memBytes, beValue]
      omega
    have hval : memRead (i0 :: i1 :: v0 :: v1 :: v2 :: v3 :: rest) (0 + 2) 4 = (v0 ++ v1 ++ v2 ++ v3).toNat := by
      have happend3 := toNat_append_eq (v0 ++ v1 ++ v2) v3
      have happend2 := toNat_append_eq (v0 ++ v1) v2
      have happend1 := toNat_append_eq v0 v1
      simp [memRead, memBytes, beValue]
      omega
    simp only [decodeRecord, hkind, hval, List.take, settingOfWire, wireValue_eq]
    generalize i0 ++ i1 = k
    generalize v0 ++ v1 ++ v2 ++ v3 = v
    have hknown : knownSetting k.toNat = true ↔ ¬(k = 0#16 ∨ 6#16 < k) := by
      simp [knownSetting]
      bv_omega
    simp [hknown, -not_or]

/-! ### When each command is ready, by its operands and the tests they pass (R100 to R152) -/

/-- A setting list of legal kinds that fits, counted from its entries or from its payload (R130, R174, R176). -/
theorem settings_fit_iff {l : List Setting} {cap : Nat} :
    (l.all Setting.wf = true ∧ 6 * (realSettings l).length ≤ cap) ↔
      ∃ p, encodeSettings l = some p ∧ p.length ≤ cap := by
  have hwf : l.all Setting.wf = true ↔ encodeSettings l ≠ none := by
    simp [encodeSettings_eq_none, Setting.wf]
  rw [hwf]
  cases h : encodeSettings l with
  | none => simp
  | some p => simp [realSettings, encodeSettings_length h]

theorem ready_readU24 {s : State} : ready .readU24 s = true ↔ ∃ b, s.req.bufIn = some b ∧ 3 ≤ b.length := by
  simp only [ready, Option.any_eq_true, decide_eq_true_eq]

theorem ready_writeU24 {s : State} :
    ready .writeU24 s = true ↔
      (∃ b, s.req.bufIn = some b ∧ 3 ≤ b.length) ∧ ∃ v, s.req.valIn = some v ∧ v.toNat < 2 ^ 24 := by
  simp only [ready, Option.any_eq_true, decide_eq_true_eq, Bool.and_eq_true]

theorem ready_readU31 {s : State} : ready .readU31 s = true ↔ ∃ b, s.req.bufIn = some b ∧ 4 ≤ b.length := by
  simp only [ready, Option.any_eq_true, decide_eq_true_eq]

theorem ready_writeU31 {s : State} :
    ready .writeU31 s = true ↔ (∃ b, s.req.bufIn = some b ∧ 4 ≤ b.length) ∧ ∃ v, s.req.valIn = some v := by
  simp only [ready, Option.any_eq_true, decide_eq_true_eq, Bool.and_eq_true, Option.isSome_iff_exists]

theorem ready_hdrEnc {s : State} : ready .hdrEnc s = true ↔ ∃ h, s.req.hdrIn = HeaderReg.of h ∧ h.len.toNat < 2 ^ 24 := by
  simp only [ready, Option.any_eq_true, decide_eq_true_eq, HeaderReg.value_eq_some]

theorem ready_hdrDec {s : State} : ready .hdrDec s = true ↔ ∃ b, s.req.bufIn = some b ∧ 9 ≤ b.length := by
  simp only [ready, Option.any_eq_true, decide_eq_true_eq]

theorem ready_setEnc {s : State} :
    ready .setEnc s = true ↔
      ∃ k, s.req.kindIn = some k ∧
        (k.toNat = 0 ∧ (∃ b, s.req.bufIn = some b) ∨
          k.toNat ≠ 0 ∧ k.toNat ≤ 6 ∧ (∃ v, s.req.valIn = some v) ∧
            ∃ b, s.req.bufIn = some b ∧ b.length + 6 ≤ s.cfg.bufCapacity) := by
  have hzero : ∀ k : Half, k = 0#16 ↔ k.toNat = 0 := fun k => BitVec.toNat_inj.symm
  simp only [ready, Option.any_eq_true, hzero, Bool.ite_eq_true_distrib, ite_prop_iff_or, decide_eq_true_eq,
    Bool.and_eq_true, Option.isSome_iff_exists, and_assoc, ne_eq]

theorem ready_setDec {s : State} :
    ready .setDec s = true ↔ ∃ b, s.req.bufIn = some b ∧ 6 ≤ b.length ∧ ∃ e, decodeRecord b 0 = some e := by
  simp only [ready, Option.any_eq_true, decide_eq_true_eq, Bool.and_eq_true, Option.isSome_iff_exists]
  exact exists_congr fun b => and_congr_right fun _ => and_congr_right fun hlen => by rw [settingOfWire_take hlen]

theorem ready_settingsEnc {s : State} :
    ready .settingsEnc s = true ↔
      (∃ l, s.req.setIn = some l ∧ ∃ p, encodeSettings l = some p ∧ p.length ≤ s.cfg.bufCapacity) ∧
        ∃ ack, s.req.ackIn = some ack := by
  simp only [ready, Option.any_eq_true, decide_eq_true_eq, Bool.and_eq_true, Option.isSome_iff_exists,
    settings_fit_iff]

theorem ready_settingsDec {s : State} :
    ready .settingsDec s = true ↔
      (∃ b, s.req.bufIn = some b ∧ b.length % 6 = 0 ∧ (decodeSettings (b.length / 6) b).length ≤ s.cfg.setCapacity) ∧
        ∃ h, s.req.hdrIn = HeaderReg.of h := by
  simp only [ready, Option.any_eq_true, decide_eq_true_eq, Bool.and_eq_true, Option.isSome_iff_exists,
    HeaderReg.value_eq_some]

theorem ready_headersEnc {s : State} :
    ready .headersEnc s = true ↔
      (∃ f, s.req.hdrIn.flags = some f ∧ headersUnsupported f = false) ∧ (∃ sid, s.req.hdrIn.sid = some sid) ∧
        (∃ es, s.req.esIn = some es) ∧ (∃ eh, s.req.ehIn = some eh) ∧ ∃ b, s.req.bufIn = some b := by
  simp only [ready, Option.any_eq_true, Bool.not_eq_true', Bool.and_eq_true, Option.isSome_iff_exists, and_assoc]

theorem ready_headersDec {s : State} :
    ready .headersDec s = true ↔
      (∃ h, s.req.hdrIn = HeaderReg.of h ∧ headersUnsupported h.flags = false) ∧ ∃ b, s.req.bufIn = some b := by
  simp only [ready, Option.any_eq_true, Bool.not_eq_true', Bool.and_eq_true, Option.isSome_iff_exists,
    HeaderReg.value_eq_some]

theorem ready_dataEnc {s : State} :
    ready .dataEnc s = true ↔
      (∃ f, s.req.hdrIn.flags = some f ∧ dataUnsupported f = false) ∧ (∃ sid, s.req.hdrIn.sid = some sid) ∧
        (∃ es, s.req.esIn = some es) ∧ ∃ b, s.req.bufIn = some b := by
  simp only [ready, Option.any_eq_true, Bool.not_eq_true', Bool.and_eq_true, Option.isSome_iff_exists, and_assoc]

theorem ready_dataDec {s : State} :
    ready .dataDec s = true ↔
      (∃ h, s.req.hdrIn = HeaderReg.of h ∧ dataUnsupported h.flags = false) ∧ ∃ b, s.req.bufIn = some b := by
  simp only [ready, Option.any_eq_true, Bool.not_eq_true', Bool.and_eq_true, Option.isSome_iff_exists,
    HeaderReg.value_eq_some]

/-! ### How a command ends -/

/-- Beside STATUS OK, the responses `r` hold a value in exactly the registers of the command's "writes" column (R24). -/
def Response.fills (r : Response) (i : Instr) : Prop :=
  ∀ reg : RespReg, Response.holds { r with status := some (outcomeCode .ok) } reg = decide (reg ∈ writesOnOk i)

/-- Four header registers that each hold a value hold a header. -/
theorem HeaderReg.eq_of {r : HeaderReg} {len sid : Word} {type flags : Byte} (hlen : r.len = some len)
    (htype : r.type = some type) (hflags : r.flags = some flags) (hsid : r.sid = some sid) :
    r = HeaderReg.of { len := len, type := type, flags := flags, sid := sid } := by
  simp only [HeaderReg.of, ← hlen, ← htype, ← hflags, ← hsid]

/-- How a command `i` started in `s` can end: OK, where it was ready, with its column written, or with another code of its list
alone (R24, R30, R163). What was written, and the code, are settled by the two tables where the responses are written out. -/
inductive CommandEnd (i : Instr) (s : State) : State → Prop where
  | ok {r : Response} (hready : ready i s = true)
      (hfills : r.fills i := by intro reg; cases reg <;> rfl) : CommandEnd i s (s.endsOk r)
  | error {c : CodecOutcome} (hlisted : c ∈ outcomesOf i := by decide) (herror : c ≠ .ok := by decide) :
      CommandEnd i s (s.endsWith c)

/-- What a command that ends can do, said once. -/
theorem exec_next {i : Instr} {s t : State} (h : exec i s = .next t) : CommandEnd i s t := by
  cases i with
  | readU24 =>
    obtain ⟨b, hb, hlen, rfl⟩ := execReadU24_next.mp h
    exact .ok (ready_readU24.mpr ⟨b, hb, hlen⟩)
  | writeU24 =>
    obtain ⟨b, hb, hlen, v, hv, hfit, rfl⟩ := execWriteU24_next.mp h
    exact .ok (ready_writeU24.mpr ⟨⟨b, hb, hlen⟩, v, hv, hfit⟩)
  | readU31 =>
    obtain ⟨b, hb, hlen, rfl⟩ := execReadU31_next.mp h
    exact .ok (ready_readU31.mpr ⟨b, hb, hlen⟩)
  | writeU31 =>
    obtain ⟨b, hb, hlen, v, hv, rfl⟩ := execWriteU31_next.mp h
    exact .ok (ready_writeU31.mpr ⟨⟨b, hb, hlen⟩, v, hv⟩)
  | hdrEnc =>
    obtain ⟨len, hlen, ⟨-, rfl⟩ | ⟨hfit, type, htype, flags, hflags, sid, hsid, rfl⟩⟩ := execHdrEnc_next.mp h
    · exact .error
    · exact .ok (ready_hdrEnc.mpr ⟨_, HeaderReg.eq_of hlen htype hflags hsid, hfit⟩)
  | hdrDec =>
    obtain ⟨b, hb, ⟨-, rfl⟩ | ⟨hlen, rfl⟩⟩ := execHdrDec_next.mp h
    · exact .error
    · exact .ok (ready_hdrDec.mpr ⟨b, hb, hlen⟩)
  | setEnc =>
    obtain ⟨k, hk, ⟨hzero, b, hb, rfl⟩ | ⟨hpos, hkind, v, hv, b, hb, hfit, rfl⟩⟩ := execSetEnc_next.mp h
    · exact .ok (ready_setEnc.mpr ⟨k, hk, .inl ⟨hzero, b, hb⟩⟩)
    · exact .ok (ready_setEnc.mpr ⟨k, hk, .inr ⟨hpos, hkind, ⟨v, hv⟩, b, hb, hfit⟩⟩)
  | setDec =>
    obtain ⟨b, hb, ⟨-, rfl⟩ | ⟨hlen, ⟨-, rfl⟩ | ⟨e, he, rfl⟩⟩⟩ := execSetDec_next.mp h
    · exact .error
    · exact .error
    · exact .ok (ready_setDec.mpr ⟨b, hb, hlen, e, he⟩)
  | settingsEnc =>
    obtain ⟨l, hl, p, hp, hfit, ack, hack, rfl⟩ := execSettingsEnc_next.mp h
    exact .ok (ready_settingsEnc.mpr ⟨⟨l, hl, p, hp, hfit⟩, ack, hack⟩)
  | settingsDec =>
    obtain ⟨b, hb, ⟨-, rfl⟩ | ⟨hlen, hfit, x, hx, rfl⟩⟩ := execSettingsDec_next.mp h
    · exact .error
    · exact .ok (ready_settingsDec.mpr ⟨⟨b, hb, hlen, hfit⟩, x, hx⟩)
  | headersEnc =>
    obtain ⟨f, hf, ⟨-, rfl⟩ | ⟨hfl, es, hes, eh, heh, b, hb, sid, hsid, rfl⟩⟩ := execHeadersEnc_next.mp h
    · exact .error
    · exact .ok (ready_headersEnc.mpr ⟨⟨f, hf, hfl⟩, ⟨sid, hsid⟩, ⟨es, hes⟩, ⟨eh, heh⟩, b, hb⟩)
  | headersDec =>
    obtain ⟨f, hf, ⟨-, rfl⟩ | ⟨hfl, x, hx, b, hb, rfl⟩⟩ := execHeadersDec_next.mp h
    · exact .error
    · obtain rfl : x.flags = f := by simpa [hx] using hf
      exact .ok (ready_headersDec.mpr ⟨⟨x, hx, hfl⟩, b, hb⟩)
  | dataEnc =>
    obtain ⟨f, hf, ⟨-, rfl⟩ | ⟨hfl, es, hes, b, hb, sid, hsid, rfl⟩⟩ := execDataEnc_next.mp h
    · exact .error
    · exact .ok (ready_dataEnc.mpr ⟨⟨f, hf, hfl⟩, ⟨sid, hsid⟩, ⟨es, hes⟩, b, hb⟩)
  | dataDec =>
    obtain ⟨f, hf, ⟨-, rfl⟩ | ⟨hfl, x, hx, b, hb, rfl⟩⟩ := execDataDec_next.mp h
    · exact .error
    · obtain rfl : x.flags = f := by simpa [hx] using hf
      exact .ok (ready_dataDec.mpr ⟨⟨x, hx, hfl⟩, b, hb⟩)

/-- A command that is ready ends OK (R100 to R152). -/
theorem exec_of_ready {i : Instr} {s : State} (h : ready i s = true) : ∃ r, exec i s = .next (s.endsOk r) := by
  cases i with
  | readU24 =>
    obtain ⟨b, hb, hlen⟩ := ready_readU24.mp h
    exact ⟨_, execReadU24_next.mpr ⟨b, hb, hlen, rfl⟩⟩
  | writeU24 =>
    obtain ⟨⟨b, hb, hlen⟩, v, hv, hfit⟩ := ready_writeU24.mp h
    exact ⟨_, execWriteU24_next.mpr ⟨b, hb, hlen, v, hv, hfit, rfl⟩⟩
  | readU31 =>
    obtain ⟨b, hb, hlen⟩ := ready_readU31.mp h
    exact ⟨_, execReadU31_next.mpr ⟨b, hb, hlen, rfl⟩⟩
  | writeU31 =>
    obtain ⟨⟨b, hb, hlen⟩, v, hv⟩ := ready_writeU31.mp h
    exact ⟨_, execWriteU31_next.mpr ⟨b, hb, hlen, v, hv, rfl⟩⟩
  | hdrEnc =>
    obtain ⟨x, hx, hfit⟩ := ready_hdrEnc.mp h
    exact ⟨_, execHdrEnc_next.mpr ⟨x.len, by simp [hx], .inr
      ⟨hfit, x.type, by simp [hx], x.flags, by simp [hx], x.sid, by simp [hx], rfl⟩⟩⟩
  | hdrDec =>
    obtain ⟨b, hb, hlen⟩ := ready_hdrDec.mp h
    exact ⟨_, execHdrDec_next.mpr ⟨b, hb, .inr ⟨hlen, rfl⟩⟩⟩
  | setEnc =>
    obtain ⟨k, hk, ⟨hzero, b, hb⟩ | ⟨hpos, hkind, ⟨v, hv⟩, b, hb, hfit⟩⟩ := ready_setEnc.mp h
    · exact ⟨_, execSetEnc_next.mpr ⟨k, hk, .inl ⟨hzero, b, hb, rfl⟩⟩⟩
    · exact ⟨_, execSetEnc_next.mpr ⟨k, hk, .inr ⟨hpos, hkind, v, hv, b, hb, hfit, rfl⟩⟩⟩
  | setDec =>
    obtain ⟨b, hb, hlen, e, he⟩ := ready_setDec.mp h
    exact ⟨_, execSetDec_next.mpr ⟨b, hb, .inr ⟨hlen, .inr ⟨e, he, rfl⟩⟩⟩⟩
  | settingsEnc =>
    obtain ⟨⟨l, hl, p, hp, hfit⟩, ack, hack⟩ := ready_settingsEnc.mp h
    exact ⟨_, execSettingsEnc_next.mpr ⟨l, hl, p, hp, hfit, ack, hack, rfl⟩⟩
  | settingsDec =>
    obtain ⟨⟨b, hb, hlen, hfit⟩, x, hx⟩ := ready_settingsDec.mp h
    exact ⟨_, execSettingsDec_next.mpr ⟨b, hb, .inr ⟨hlen, hfit, x, hx, rfl⟩⟩⟩
  | headersEnc =>
    obtain ⟨⟨f, hf, hfl⟩, ⟨sid, hsid⟩, ⟨es, hes⟩, ⟨eh, heh⟩, b, hb⟩ := ready_headersEnc.mp h
    exact ⟨_, execHeadersEnc_next.mpr ⟨f, hf, .inr ⟨hfl, es, hes, eh, heh, b, hb, sid, hsid, rfl⟩⟩⟩
  | headersDec =>
    obtain ⟨⟨x, hx, hfl⟩, b, hb⟩ := ready_headersDec.mp h
    exact ⟨_, execHeadersDec_next.mpr ⟨x.flags, by simp [hx], .inr ⟨hfl, x, hx, b, hb, rfl⟩⟩⟩
  | dataEnc =>
    obtain ⟨⟨f, hf, hfl⟩, ⟨sid, hsid⟩, ⟨es, hes⟩, b, hb⟩ := ready_dataEnc.mp h
    exact ⟨_, execDataEnc_next.mpr ⟨f, hf, .inr ⟨hfl, es, hes, b, hb, sid, hsid, rfl⟩⟩⟩
  | dataDec =>
    obtain ⟨⟨x, hx, hfl⟩, b, hb⟩ := ready_dataDec.mp h
    exact ⟨_, execDataDec_next.mpr ⟨x.flags, by simp [hx], .inr ⟨hfl, x, hx, b, hb, rfl⟩⟩⟩

theorem outcomeCode_eq_zero {c : CodecOutcome} : outcomeCode c = 0x00#8 ↔ c = .ok := by
  cases c <;> decide

/-- A command that ended OK was ready, and wrote its column (R24). -/
theorem exec_endsOk {i : Instr} {s t : State} (h : exec i s = .next t) (hok : t.resp.status = some 0x00#8) :
    ready i s = true ∧ ∃ r : Response, r.fills i ∧ t = s.endsOk r := by
  cases exec_next h with
  | ok hready hfills => exact ⟨hready, _, hfills, rfl⟩
  | error _ herror => exact absurd (outcomeCode_eq_zero.mp (Option.some.inj hok)) herror

/-- Settles O28: a ready command ends OK with its column written, and only a ready one does. -/
theorem readyCommandsComplete : Obligations.ReadyCommandsComplete := by
  intro i s
  refine ⟨fun hready => ?_, fun t h hok => (exec_endsOk h hok).1⟩
  obtain ⟨r, hr⟩ := exec_of_ready hready
  obtain ⟨-, r', hfills, heq⟩ := exec_endsOk hr rfl
  rw [heq] at hr
  exact ⟨_, hr, rfl, hfills⟩

/-- A command that ends changes the response registers alone (R22, R56). -/
theorem exec_next_frame {i : Instr} {s t : State} (h : exec i s = .next t) : ∃ p, t = { s with resp := p } := by
  cases exec_next h <;> exact ⟨_, rfl⟩

/-- Settles O29: the frame of a command that ends. -/
theorem commandsWriteResponsesOnly : Obligations.CommandsWriteResponsesOnly := by
  intro i s t h
  obtain ⟨p, rfl⟩ := exec_next_frame h
  exact ⟨rfl, rfl, rfl, rfl, rfl, rfl, fun b hb => ⟨b, hb, fun _ => rfl⟩⟩

/-! ### How a command stops -/

/-- Where an outcome is a stop, it is one of a unit in the state `u`: the mark set, and nothing else changed (R33, R170, R175). -/
def StopsIn (u : State) : Out → Prop
  | .next _ => True
  | .fault f => f.after = { u with faulted := true }
  | .refused r => r = .capacity { u with refused := true }

theorem stopsIn_need {α : Type} {r : Option α} {u : State} {k : α → Out} (h : ∀ v, StopsIn u (k v)) :
    StopsIn u (need r u k) := by
  cases r with
  | none => rfl
  | some v => exact h v

theorem stopsIn_needHeader {r : HeaderReg} {u : State} {k : Header → Out} (h : ∀ v, StopsIn u (k v)) :
    StopsIn u (needHeader r u k) := by
  rw [needHeader_eq]
  exact stopsIn_need h

theorem stopsIn_ite {c : Prop} [Decidable c] {u : State} {a b : Out} (ha : StopsIn u a) (hb : StopsIn u b) :
    StopsIn u (if c then a else b) := by
  split
  · exact ha
  · exact hb

/-- Every stop of a command, whichever test or read it is, leaves the state the command began in with a mark set (R30, R33). -/
theorem exec_stopsIn (i : Instr) (s : State) : StopsIn s.beginCommand (exec i s) := by
  cases i with
  | readU24 => exact stopsIn_need fun _ => stopsIn_ite rfl trivial
  | writeU24 => exact stopsIn_need fun _ => stopsIn_ite rfl (stopsIn_need fun _ => stopsIn_ite rfl trivial)
  | readU31 => exact stopsIn_need fun _ => stopsIn_ite rfl trivial
  | writeU31 => exact stopsIn_need fun _ => stopsIn_ite rfl (stopsIn_need fun _ => trivial)
  | hdrEnc =>
    exact stopsIn_need fun _ => stopsIn_ite trivial
      (stopsIn_need fun _ => stopsIn_need fun _ => stopsIn_need fun _ => trivial)
  | hdrDec => exact stopsIn_need fun _ => stopsIn_ite trivial trivial
  | setEnc =>
    exact stopsIn_need fun _ => stopsIn_ite (stopsIn_need fun _ => trivial)
      (stopsIn_ite rfl (stopsIn_need fun _ => stopsIn_need fun _ => stopsIn_ite rfl trivial))
  | setDec =>
    refine stopsIn_need fun b => stopsIn_ite trivial ?_
    cases decodeRecord b 0 <;> trivial
  | settingsEnc =>
    refine stopsIn_need fun l => ?_
    cases encodeSettings l with
    | none => rfl
    | some p => exact stopsIn_ite rfl (stopsIn_need fun _ => trivial)
  | settingsDec => exact stopsIn_need fun _ => stopsIn_ite trivial (stopsIn_ite rfl (stopsIn_needHeader fun _ => trivial))
  | headersEnc =>
    exact stopsIn_need fun _ => stopsIn_ite trivial
      (stopsIn_need fun _ => stopsIn_need fun _ => stopsIn_need fun _ => stopsIn_need fun _ => trivial)
  | headersDec =>
    exact stopsIn_need fun _ => stopsIn_ite trivial (stopsIn_needHeader fun _ => stopsIn_need fun _ => trivial)
  | dataEnc =>
    exact stopsIn_need fun _ => stopsIn_ite trivial
      (stopsIn_need fun _ => stopsIn_need fun _ => stopsIn_need fun _ => trivial)
  | dataDec =>
    exact stopsIn_need fun _ => stopsIn_ite trivial (stopsIn_needHeader fun _ => stopsIn_need fun _ => trivial)

/-- What a command's fault leaves: the responses of its start and `FAULTED`, all else as before (R30, R170). -/
theorem exec_fault_after {i : Instr} {s : State} {f : Fault} (h : exec i s = .fault f) :
    f.after = { s.beginCommand with faulted := true } := by
  simpa [h, StopsIn] using exec_stopsIn i s

/-- A command is refused for a capacity alone, and leaves the responses of its start and `REFUSED` (R30, R175, R176). -/
theorem exec_refused {i : Instr} {s : State} {r : Refusal} (h : exec i s = .refused r) :
    r = .capacity { s.beginCommand with refused := true } := by
  simpa [h, StopsIn] using exec_stopsIn i s

/-- Settles O30: a command ends in one of the two ways, or stops with the responses it began with. -/
theorem commandsRewriteTheResponses : Obligations.CommandsRewriteTheResponses := by
  intro i s
  refine ⟨fun t h => ?_, fun f h => ?_, fun u h => ?_⟩
  · cases exec_next h with
    | ok hready hfills => exact ⟨0x00#8, rfl, fun hne => absurd rfl hne, fun _ => hfills⟩
    | @error c hlisted herror =>
      exact ⟨outcomeCode c, rfl, fun _ => rfl, fun hzero => absurd (outcomeCode_eq_zero.mp hzero) herror⟩
  · rw [exec_fault_after h]
    rfl
  · obtain rfl := Refusal.capacity.inj (exec_refused h)
    rfl

/-! ### What a command reads (R21, R24) -/

/-- The same unit beside another host: other request registers, moves to make and values read. -/
def State.withHostSide (q : Request) (moves : List HostMove) (vals : List RegVal) (t : State) : State :=
  { t with req := q, script := moves, seen := vals }

section
variable (q : Request) (moves : List HostMove) (vals : List RegVal)

@[simp] theorem State.withHostSide_req (s : State) : (s.withHostSide q moves vals).req = q := rfl

/-- A command starts from what is kept beside the responses: the old ones do not matter (R30). -/
@[simp] theorem State.beginCommand_withHostSide (s : State) (p : Response) :
    State.beginCommand { s with req := q, resp := p, script := moves, seen := vals } =
      s.beginCommand.withHostSide q moves vals := rfl

@[simp] theorem mapOut_withHostSide_need {α : Type} (r : Option α) (u : State) (k : α → Out) :
    mapOut (State.withHostSide q moves vals) (need r u k) =
      need r (u.withHostSide q moves vals) fun v => mapOut (State.withHostSide q moves vals) (k v) := by
  cases r <;> rfl

@[simp] theorem mapOut_withHostSide_needHeader (r : HeaderReg) (u : State) (k : Header → Out) :
    mapOut (State.withHostSide q moves vals) (needHeader r u k) =
      needHeader r (u.withHostSide q moves vals) fun h => mapOut (State.withHostSide q moves vals) (k h) := by
  simp only [needHeader_eq, mapOut_withHostSide_need]

@[simp] theorem mapOut_ite (g : State → State) (c : Prop) [Decidable c] (a b : Out) :
    mapOut g (if c then a else b) = if c then mapOut g a else mapOut g b :=
  apply_ite (mapOut g) c a b

@[simp] theorem mapOut_withHostSide_finish (u : State) (r : Response) :
    mapOut (State.withHostSide q moves vals) (finish u r) = finish (u.withHostSide q moves vals) r := rfl

@[simp] theorem mapOut_withHostSide_raiseOutcome (u : State) (c : CodecOutcome) :
    mapOut (State.withHostSide q moves vals) (raiseOutcome c u) = raiseOutcome c (u.withHostSide q moves vals) := rfl

@[simp] theorem mapOut_withHostSide_precondition (u : State) (w : Contract) :
    mapOut (State.withHostSide q moves vals) (takeFault (.precondition w) u) =
      takeFault (.precondition w) (u.withHostSide q moves vals) := rfl

@[simp] theorem mapOut_withHostSide_illegalOperand (u : State) :
    mapOut (State.withHostSide q moves vals) (takeFault .illegalOperand u) =
      takeFault .illegalOperand (u.withHostSide q moves vals) := rfl

@[simp] theorem mapOut_withHostSide_capacity (u : State) :
    mapOut (State.withHostSide q moves vals) (takeRefusal .capacity u) =
      takeRefusal .capacity (u.withHostSide q moves vals) := rfl

end

/-- Settles O31: a command goes the same way beside another host, read by read and test by test, where its column agrees. -/
theorem commandsReadOnlyTheirColumn : Obligations.CommandsReadOnlyTheirColumn := by
  intro i s q p moves vals hagree
  change _ = mapOut (State.withHostSide q moves vals) (exec i s)
  cases i <;> simp only [readsOf, List.forall_mem_cons, Request.agreeOn, decide_eq_true_eq] at hagree
  case readU24 => simp [exec, execReadU24, hagree]
  case writeU24 => simp [exec, execWriteU24, hagree]
  case readU31 => simp [exec, execReadU31, hagree]
  case writeU31 => simp [exec, execWriteU31, hagree]
  case hdrEnc => simp [exec, execHdrEnc, hagree]
  case hdrDec => simp [exec, execHdrDec, hagree]
  case setEnc => simp [exec, execSetEnc, hagree]
  case setDec =>
    simp only [exec, execSetDec, State.beginCommand_withHostSide, State.withHostSide_req, State.beginCommand_req, hagree,
      mapOut_withHostSide_need, mapOut_ite, mapOut_withHostSide_raiseOutcome]
    congr! 3 with b
    cases decodeRecord b 0 <;> rfl
  case settingsEnc =>
    simp only [exec, execSettingsEnc, State.beginCommand_withHostSide, State.withHostSide_req, State.beginCommand_req, hagree,
      mapOut_withHostSide_need]
    congr! 2 with l
    cases encodeSettings l with
    | none => rfl
    | some pay => simp
  case settingsDec => simp [exec, execSettingsDec, hagree]
  case headersEnc => simp [exec, execHeadersEnc, hagree]
  case headersDec => simp [exec, execHeadersDec, hagree]
  case dataEnc => simp [exec, execDataEnc, hagree]
  case dataDec => simp [exec, execDataDec, hagree]

end Sys2Proof.Machine
end

section
/-! What a host move leaves, and what a single step is: the marks, the responses and whole headers along a step, a command issued,
a register written or read. -/

namespace Sys2Proof.Machine

/-! ### Moves that end -/

/-- A host move other than reset keeps the parameters, both marks and the moves to come, and, where it issues no command, the
responses (R20, R23, R33). -/
theorem performMove_next_frame {m : HostMove} {s t : State} (hm : m ≠ .reset) (h : performMove m s = .next t) :
    ∃ q p vals, t = { s with req := q, resp := p, seen := vals } ∧ ((∀ w, m ≠ .cmd w) → p = s.resp) := by
  cases m with
  | cmd w =>
    obtain ⟨i, -, hi⟩ := issueCommand_next.mp h
    obtain ⟨p, rfl⟩ := exec_next_frame hi
    exact ⟨_, p, _, rfl, fun hcmd => absurd rfl (hcmd w)⟩
  | wr x =>
    obtain ⟨q, rfl⟩ := hostWrite_next h
    exact ⟨q, _, _, rfl, fun _ => rfl⟩
  | fwd =>
    obtain ⟨x, -, rfl⟩ := forwardHeader_next.mp h
    exact ⟨_, _, _, rfl, fun _ => rfl⟩
  | rd r =>
    obtain ⟨v, -, rfl⟩ := hostRead_next.mp h
    exact ⟨_, _, _, rfl, fun _ => rfl⟩
  | reset => exact absurd rfl hm

/-- Settles O51: a step that issues no command and is no reset is nothing, or a move that keeps the responses. -/
theorem onlyCommandsWriteResponses : Obligations.OnlyCommandsWriteResponses := by
  intro s t hcmd hreset h
  obtain ⟨-, rfl⟩ | ⟨m, rest, hscript, hm⟩ := step_next.mp h
  · rfl
  · obtain ⟨q, p, vals, rfl, hresp⟩ := performMove_next_frame (by simpa [hscript] using hreset) hm
    exact hresp (by simpa [hscript] using hcmd)

/-! ### Moves that stop -/

theorem issueCommand_refused {w : Byte} {s : State} {r : Refusal} :
    issueCommand w s = .refused r ↔ ∃ i, decodeWord w = some i ∧ exec i (s.withCmd w) = .refused r := by
  unfold issueCommand decode
  cases h : decodeWord w <;> simp [h, takeFault]

/-- A host read that faults read `⊥`, and set `FAULTED` alone (R31, R171). -/
theorem hostRead_fault {r : RespReg} {s : State} {f : Fault} (h : hostRead r s = .fault f) :
    f = .unwrittenRequest { s with faulted := true } := by
  obtain ⟨-, rfl⟩ | ⟨v, -, hv⟩ := need_fault.mp h
  · rfl
  · cases hv

theorem hostRead_ne_refused {r : RespReg} {s : State} {x : Refusal} : hostRead r s ≠ .refused x := by
  intro h
  obtain ⟨v, -, hv⟩ := need_refused.mp h
  cases hv

/-- A forward that faults read `⊥`, and set `FAULTED` alone (R31, R91). -/
theorem forwardHeader_fault {s : State} {f : Fault} (h : forwardHeader s = .fault f) :
    f = .unwrittenRequest { s with faulted := true } := by
  rw [forwardHeader, needHeader_eq] at h
  obtain ⟨-, rfl⟩ | ⟨v, -, hv⟩ := need_fault.mp h
  · rfl
  · cases hv

theorem forwardHeader_ne_refused {s : State} {x : Refusal} : forwardHeader s ≠ .refused x := by
  intro h
  rw [forwardHeader, needHeader_eq] at h
  obtain ⟨v, -, hv⟩ := need_refused.mp h
  cases hv

/-- Every host move that faults leaves `FAULTED` set (R33, R170). -/
theorem performMove_fault_faulted {m : HostMove} {s : State} {f : Fault} (h : performMove m s = .fault f) :
    f.after.faulted = true := by
  cases m with
  | cmd w =>
    obtain ⟨i, -, hi⟩ | ⟨-, rfl⟩ := issueCommand_fault.mp h
    · rw [exec_fault_after hi]
    · rfl
  | wr x => rw [hostWrite_fault h]; rfl
  | fwd => rw [forwardHeader_fault h]; rfl
  | rd r => rw [hostRead_fault h]; rfl
  | reset => cases h

/-- A host move that is refused for a capacity issued a command, and leaves `REFUSED` set (R33, R175, R176). -/
theorem performMove_capacity_refused {m : HostMove} {s u : State} (h : performMove m s = .refused (.capacity u)) :
    u.refused = true := by
  cases m with
  | cmd w =>
    obtain ⟨i, -, hi⟩ := issueCommand_refused.mp h
    obtain rfl := Refusal.capacity.inj (exec_refused hi)
    rfl
  | wr x => exact absurd h hostWrite_refused
  | fwd => exact absurd h forwardHeader_ne_refused
  | rd r => exact absurd h hostRead_ne_refused
  | reset => cases h

theorem step_refused {s : State} {r : Refusal} :
    step s = .refused r ↔ ∃ m rest, s.script = m :: rest ∧ performMove m { s with script := rest } = .refused r := by
  unfold step stepHost
  cases s.script <;> simp

/-- Settles O50: a mark is set by every move that stops, kept by every move that ends but a reset, and cleared by a reset. -/
theorem marksStick : Obligations.MarksStick := by
  refine ⟨fun s f h => ?_, fun s u h => ?_, fun s t hmove h => ?_, fun s t hreset h => ?_⟩
  · obtain ⟨m, rest, -, hm⟩ := step_fault.mp h
    exact performMove_fault_faulted hm
  · obtain ⟨m, rest, -, hm⟩ := step_refused.mp h
    exact performMove_capacity_refused hm
  · obtain ⟨-, rfl⟩ | ⟨m, rest, hscript, hm⟩ := step_next.mp h
    · exact ⟨rfl, rfl⟩
    · obtain ⟨q, p, vals, rfl, -⟩ := performMove_next_frame (by simpa [hscript] using hmove) hm
      exact ⟨rfl, rfl⟩
  · obtain ⟨rest, hscript⟩ := List.head?_eq_some_iff.mp hreset
    rw [step_of_script hscript] at h
    cases h
    exact ⟨rfl, rfl⟩

/-! ### Whole headers (R24, R91) -/

/-- A command with `HDR_IN` in its column is ready only where `HDR_IN.FLAGS` holds a value (R110, R132, R140, R143, R150, R152). -/
theorem ready_flags {i : Instr} {s : State} (hreads : ReqReg.hdrIn ∈ readsOf i) (h : ready i s = true) :
    ∃ f, s.req.hdrIn.flags = some f := by
  have hwhole : ∀ x, s.req.hdrIn = HeaderReg.of x → ∃ f, s.req.hdrIn.flags = some f := fun x hx => ⟨x.flags, by simp [hx]⟩
  cases i
  case hdrEnc =>
    obtain ⟨x, hx, -⟩ := ready_hdrEnc.mp h
    exact hwhole x hx
  case settingsDec =>
    obtain ⟨-, x, hx⟩ := ready_settingsDec.mp h
    exact hwhole x hx
  case headersEnc =>
    obtain ⟨⟨f, hf, -⟩, -⟩ := ready_headersEnc.mp h
    exact ⟨f, hf⟩
  case headersDec =>
    obtain ⟨⟨x, hx, -⟩, -⟩ := ready_headersDec.mp h
    exact hwhole x hx
  case dataEnc =>
    obtain ⟨⟨f, hf, -⟩, -⟩ := ready_dataEnc.mp h
    exact ⟨f, hf⟩
  case dataDec =>
    obtain ⟨⟨x, hx, -⟩, -⟩ := ready_dataDec.mp h
    exact hwhole x hx
  all_goals simp [readsOf] at hreads

/-- A host write but one of a single header field keeps `HDR_IN` whole: it writes the four fields, or none of them. -/
theorem hostWrite_whole {x : ReqWrite} {s t : State} (hx : (HostMove.wr x).writesOneField = false)
    (hs : s.req.hdrIn.whole = true) (h : hostWrite x s = .next t) : t.req.hdrIn.whole = true := by
  cases x with
  | hdrInLen | hdrInType | hdrInFlags | hdrInSid => cases hx
  | hdrIn y =>
    cases h
    exact HeaderReg.whole_of _
  | bufIn src =>
    obtain ⟨b, -, rfl⟩ := writeBufIn_next h
    exact hs
  | setIn es =>
    rw [hostWrite] at h
    split at h
    · cases h
    · cases h
      exact hs
  | _ =>
    cases h
    exact hs

theorem performMove_whole {m : HostMove} {s t : State} (h : performMove m s = .next t) (hm : m.writesOneField = false)
    (hs : s.req.hdrIn.whole = true) : t.req.hdrIn.whole = true := by
  cases m with
  | cmd w =>
    obtain ⟨i, -, hi⟩ := issueCommand_next.mp h
    obtain ⟨p, rfl⟩ := exec_next_frame hi
    exact hs
  | wr x => exact hostWrite_whole hm hs h
  | fwd =>
    obtain ⟨x, -, rfl⟩ := forwardHeader_next.mp h
    exact HeaderReg.whole_of x
  | rd r =>
    obtain ⟨v, -, rfl⟩ := hostRead_next.mp h
    exact hs
  | reset =>
    cases h
    rfl

/-- Settles O32: a command that reads `HDR_IN` and ends OK had its flags, and a whole header with its flags is all there. -/
theorem wholeHeadersAreReadWhole : Obligations.WholeHeadersAreReadWhole := by
  refine ⟨fun i s t hreads hs h hok => ?_, fun s t hmove hs h => ?_, rfl⟩
  · obtain ⟨hready, -⟩ := exec_endsOk h hok
    obtain ⟨f, hf⟩ := ready_flags hreads hready
    exact HeaderReg.whole_flags hs hf
  · obtain ⟨-, rfl⟩ | ⟨m, rest, hscript, hm⟩ := step_next.mp h
    · exact hs
    · exact performMove_whole hm (hmove m (by simp [hscript])) hs

/-! ### A command issued (R85) -/

theorem issueCommand_of_decodeWord {w : Byte} {i : Instr} (h : decodeWord w = some i) (s : State) :
    issueCommand w s = exec i (s.withCmd w) := by
  simp [issueCommand, decode, h]

/-- Settles O3: the step is the host's next move, and that move issues the command its word decodes to. -/
theorem stepRunsIssuedCommand : Obligations.StepRunsIssuedCommand := by
  intro s n rest i hscript hword _
  rw [step_of_script hscript]
  exact issueCommand_of_decodeWord hword _

theorem decodeWord_encodeWord (i : Instr) : decodeWord (encodeWord i) = some i := by
  cases i <;> rfl

/-- Where the host has written nothing but the command word, the first register a command reads holds `⊥` (R31, R171). -/
theorem exec_of_nothing_written (i : Instr) {s : State} {w : Byte} (h : s.req = { cmd := some w }) :
    exec i s = .fault (.unwrittenRequest { s.beginCommand with faulted := true }) := by
  obtain ⟨cfg, req, resp, faulted, refused, script, seen⟩ := s
  obtain rfl : req = { cmd := some w } := h
  cases i <;> rfl

/-- Settles O44: the word issued from reset decodes to its command, and nothing that command reads is written. -/
theorem commandsFaultRightAfterReset : Obligations.CommandsFaultRightAfterReset := by
  intro i
  have hword : decodeWord (BitVec.ofNat 8 ((encodeWord i).toNat % 2 ^ 8)) = some i := by
    rw [Nat.mod_eq_of_lt (encodeWord i).isLt, BitVec.ofNat_toNat, BitVec.setWidth_eq, decodeWord_encodeWord]
  rw [step_of_script (State.withFetchWord_script _ _ _), performMove, issueCommand_of_decodeWord hword,
    exec_of_nothing_written i rfl]
  exact ⟨_, rfl, rfl, rfl⟩

/-! ### A register written or read (R26, R31) -/

theorem bitOfNat_toNat (v : Nat) : (bitOfNat v).toNat = v % 2 := by
  rcases Nat.mod_two_eq_zero_or_one v with h | h <;> simp [bitOfNat, h]

/-- Settles O45: each write places its number as a word of the register's width, or as a bit, and the step is that write. -/
theorem hostWritesAreModuloWidth : Obligations.HostWritesAreModuloWidth := by
  intro s rest v
  refine ⟨?len, ?type, ?flags, ?sid, ?val, ?kind, ?ack, ?es, ?eh, ?hdr, ?set⟩
  case len | type | flags | sid | val | kind => exact fun hs => ⟨_, BitVec.toNat_ofNat .., step_of_script hs⟩
  case ack | es | eh => exact fun hs => ⟨_, bitOfNat_toNat v, step_of_script hs⟩
  case hdr =>
    exact fun h hs => ⟨headerOfLit h, BitVec.toNat_ofNat .., BitVec.toNat_ofNat .., BitVec.toNat_ofNat ..,
      BitVec.toNat_ofNat .., step_of_script hs⟩
  case set =>
    intro es hs
    rw [step_of_script hs]
    refine ⟨fun hfit => ⟨es.map settingOfPair, ?_, if_neg (Nat.not_lt.mpr hfit)⟩, fun hbig => if_pos hbig⟩
    simp [settingOfPair, Function.comp_def]

/-- Settles O48: a host read is one `need` of the register. -/
theorem hostReadsOfBottomFault : Obligations.HostReadsOfBottomFault := by
  intro s r rest hscript
  rw [step_of_script hscript, performMove, hostRead, Response.holds]
  cases readResp r s.resp with
  | none => exact ⟨fun _ => rfl, nofun⟩
  | some v => exact ⟨nofun, fun _ => ⟨v, rfl, rfl⟩⟩

end Sys2Proof.Machine
end

section
/-! The unit's buffers and registers as memory: what a write puts at each address (R9, R53), and that a command's result does not
depend on the responses it starts from (R30, R59). -/

namespace Sys2Proof.Machine

/-! ### Commands run again -/

@[simp] theorem Request.agreeOn_self (r : ReqReg) (q : Request) : Request.agreeOn r q q = true := by
  cases r <;> simp [Request.agreeOn]

/-- Settles O34: a command that ends changes the responses alone, and no command reads them. -/
theorem commandsAreIdempotent : Obligations.CommandsAreIdempotent := by
  intro i s t h
  obtain ⟨p, rfl⟩ := exec_next_frame h
  have hagain := commandsReadOnlyTheirColumn i s s.req p s.script s.seen fun r _ => Request.agreeOn_self r s.req
  rwa [h] at hagain

/-! ### What a buffer write puts at each address -/

/-- The bytes of a written field stand at its addresses, in order (R9). -/
theorem readByte_memWrite_of_inside {b : Bytes} {a n v i : Nat} (h : a + n ≤ b.length) (hi : i < n) :
    readByte (memWrite b a n v) (a + i) = (beBytes v n)[i]? := by
  have htake : (b.take a).length = a := List.length_take_of_le (by omega)
  rw [readByte, memWrite, List.append_assoc, List.getElem?_append_right (by omega),
    List.getElem?_append_left (by simp; omega), htake, Nat.add_sub_cancel_left]

/-- `BE(v, 4)` of a 32-bit value is its four bytes, most significant first (R53). -/
theorem beBytes_toNat_eq_wireWord (v : Word) : beBytes v.toNat 4 = wireWord v := rfl

/-- Settles O42: the four written addresses hold the bytes of the value's wire form, and every other one what it held. -/
theorem bufferWritesAreBigEndian : Obligations.BufferWritesAreBigEndian := by
  intro b a v h
  have hwritten (i : Nat) (hi : i < 4) : readByte (memWrite b a 4 v.toNat) (a + i) = (wireWord v)[i]? :=
    beBytes_toNat_eq_wireWord v ▸ readByte_memWrite_of_inside h hi
  have hback : memRead (memWrite b a 4 v.toNat) a 4 = v.toNat :=
    (memRead_memWrite h).trans (Nat.mod_eq_of_lt v.isLt)
  exact ⟨hwritten 0 (by decide), hwritten 1 (by decide), hwritten 2 (by decide), hwritten 3 (by decide), hback,
    memWrite_length h, fun i hi => readByte_memWrite_of_outside h hi⟩

end Sys2Proof.Machine
end

section
/-! The command word, the host's moves as equations, and the frames the host sends and receives with them (R20, R85 to R92). -/

namespace Sys2Proof.Machine

/-! ### The command word (R85 to R87) -/

/-- `GROUP` and `FUNC` are all of a command word (R85). -/
theorem eq_of_cmdGroup_of_cmdFunc {v w : Byte} (hgroup : cmdGroup v = cmdGroup w) (hfunc : cmdFunc v = cmdFunc w) : v = w := by
  apply BitVec.eq_of_toNat_eq
  simp only [cmdGroup, cmdFunc] at hgroup hfunc
  omega

theorem encodeWord_of_decodeWord {w : Byte} {i : Instr} (h : decodeWord w = some i) : encodeWord i = w := by
  unfold decodeWord at h
  split at h <;> cases h
  all_goals
    rename_i hgroup hfunc
    exact eq_of_cmdGroup_of_cmdFunc hgroup.symm hfunc.symm

/-- The words no command is encoded as are the illegal ones (R87). -/
theorem decodeWord_eq_none {w : Byte} (h : ∀ i, encodeWord i ≠ w) : decodeWord w = none :=
  Option.eq_none_iff_forall_ne_some.mpr fun i hi => h i (encodeWord_of_decodeWord hi)

/-- Settles O1: the fourteen rows of the command map. -/
theorem commandMapWordsDecode : Obligations.CommandMapWordsDecode :=
  ⟨rfl, rfl, rfl, rfl, rfl, rfl, rfl, rfl, rfl, rfl, rfl, rfl, rfl, rfl⟩

/-- Settles O2: a row of the command map decodes to its command, and `GROUP` and `FUNC` tell its word from every other. -/
theorem commandWordsRoundTrip : Obligations.CommandWordsRoundTrip := by
  refine ⟨fun i rest _ => ?_, fun w i h => encodeWord_of_decodeWord h⟩
  simp [encode, decode, decodeWord_encodeWord]

/-- Settles O4: a word that is no command's is not decoded, and the move that issues it faults. -/
theorem illegalWordFaults : Obligations.IllegalWordFaults := by
  intro s n rest hscript hword
  rw [step_of_script hscript]
  exact issueCommand_fault.mpr (.inr ⟨decodeWord_eq_none hword, rfl⟩)

/-! ### Host writes of `BUF_IN` from each source (R91) -/

theorem sliceOf_eq_none {w : Bytes} {a z : Nat} (h : ∀ b, ¬ isSlice w a z b) : sliceOf w a z = none :=
  Option.eq_none_iff_forall_ne_some.mpr fun b hb => h b (sliceOf_eq_some.mp hb)

/-- A source that names bytes places them. -/
theorem writeBufIn_of_names {src : BufSource} {s : State} {b : Bytes} (h : src.names s.resp b) :
    writeBufIn src s = placeBufIn (.wr (.bufIn src)) (some b) s := by
  cases src with
  | lit w =>
    obtain rfl : b = w := h
    rfl
  | bufOut =>
    have hout : s.resp.bufOut = some b := h
    simp [writeBufIn, hout]
  | bufOutSlice a z =>
    obtain ⟨w, hout, hslice⟩ := h
    simp [writeBufIn, hout, sliceOf_eq_some.mpr hslice]
  | slice w a z => simp [writeBufIn, sliceOf_eq_some.mpr h]
  | payload w =>
    obtain ⟨len, hlen, hslice⟩ := h
    simp [writeBufIn, hlen, sliceOf_eq_some.mpr hslice]

/-- A source that reads `⊥` is a host read of it (R31, R171). -/
theorem writeBufIn_of_bottom {src : BufSource} {s : State} (h : src.bottom s.resp = true) :
    writeBufIn src s = .fault (.unwrittenRequest { s with faulted := true }) := by
  cases src with
  | lit | slice => cases h
  | bufOut | bufOutSlice | payload => rw [writeBufIn, Option.isNone_iff_eq_none.mp h, need_none]

/-- A source that reads values and names no bytes is a slice the host does not have (R92). -/
theorem writeBufIn_of_no_names {src : BufSource} {s : State} (hbottom : src.bottom s.resp = false)
    (h : ∀ b, ¬ src.names s.resp b) : writeBufIn src s = noSuchMove (.wr (.bufIn src)) := by
  cases src with
  | lit w => exact absurd rfl (h w)
  | bufOut =>
    obtain ⟨b, hout⟩ := Option.isSome_iff_exists.mp (Option.isNone_eq_false_iff.mp hbottom)
    exact absurd hout (h b)
  | bufOutSlice a z =>
    obtain ⟨w, hout⟩ := Option.isSome_iff_exists.mp (Option.isNone_eq_false_iff.mp hbottom)
    rw [writeBufIn, hout, need_some, sliceOf_eq_none fun b hb => h b ⟨w, hout, hb⟩]
    rfl
  | slice w a z =>
    rw [writeBufIn, sliceOf_eq_none h]
    rfl
  | payload w =>
    obtain ⟨len, hlen⟩ := Option.isSome_iff_exists.mp (Option.isNone_eq_false_iff.mp hbottom)
    rw [writeBufIn, hlen, need_some, sliceOf_eq_none fun b hb => h b ⟨len, hlen, hb⟩]
    rfl

/-- A write of `BUF_IN` whose source names bytes that fit ends with them there (R91). -/
theorem performMove_bufIn {src : BufSource} {s : State} {b : Bytes} (hb : src.names s.resp b)
    (hfit : b.length ≤ s.cfg.bufCapacity) :
    performMove (.wr (.bufIn src)) s = .next { s with req := { s.req with bufIn := some b } } := by
  rw [performMove, hostWrite, writeBufIn_of_names hb, placeBufIn_some, if_neg (Nat.not_lt.mpr hfit)]

/-- Settles O46: a source names bytes to place, reads `⊥`, or is a slice the host does not have. -/
theorem hostWritesPlaceTheSourcesBytes : Obligations.HostWritesPlaceTheSourcesBytes := by
  intro s rest src hscript
  rw [step_of_script hscript]
  exact ⟨fun b (hb : src.names { s with script := rest }.resp b) =>
      ⟨performMove_bufIn hb, fun hbig => (writeBufIn_of_names hb).trans (if_pos hbig)⟩,
    fun hbottom => writeBufIn_of_bottom hbottom, fun hbottom hb => writeBufIn_of_no_names hbottom hb⟩

/-- Settles O49: forwarding is one read of the header. -/
theorem forwardCopiesTheHeader : Obligations.ForwardCopiesTheHeader := by
  intro s rest hscript
  rw [step_of_script hscript]
  refine ⟨fun h hout => forwardHeader_next.mpr ⟨h, hout, rfl⟩, fun hnone => ?_⟩
  rw [performMove, forwardHeader, needHeader_eq, hnone, need_none]

/-! ### The frame type (R77) -/

/-- Two outcomes of one kind; where both are a next state, with one `STATUS`. -/
def SameEnd : Out → Out → Prop
  | .next t, .next u => u.resp.status = t.resp.status
  | .fault _, .fault _ => True
  | .refused _, .refused _ => True
  | _, _ => False

theorem SameEnd.next {o p : Out} {t : State} (h : SameEnd o p) (ho : o = .next t) :
    ∃ u, p = .next u ∧ u.resp.status = t.resp.status := by
  subst ho
  cases p with
  | next u => exact ⟨u, rfl, h⟩
  | _ => exact h.elim

theorem SameEnd.fault {o p : Out} {f : Fault} (h : SameEnd o p) (ho : o = .fault f) : ∃ g, p = .fault g := by
  subst ho
  cases p with
  | fault g => exact ⟨g, rfl⟩
  | _ => exact h.elim

theorem SameEnd.refused {o p : Out} {r : Refusal} (h : SameEnd o p) (ho : o = .refused r) : ∃ q, p = .refused q := by
  subst ho
  cases p with
  | refused q => exact ⟨q, rfl⟩
  | _ => exact h.elim

/-- `HDR_IN.TYPE` holding `a`, all else as in `s`. -/
def State.withFrameType (s : State) (a : Byte) : State :=
  { s with req := { s.req with hdrIn := { s.req.hdrIn with type := some a } } }

theorem sameEnd_mapOut {g : State → State} (hg : ∀ t, (g t).resp = t.resp) (o : Out) : SameEnd o (mapOut g o) := by
  cases o with
  | next t => exact congrArg Response.status (hg t)
  | fault f => cases f <;> trivial
  | refused r => cases r <;> trivial

theorem sameEnd_need {α : Type} {r : Option α} {u v : State} {k l : α → Out} (h : ∀ x, SameEnd (k x) (l x)) :
    SameEnd (need r u k) (need r v l) := by
  cases r with
  | none => trivial
  | some x => exact h x

theorem sameEnd_ite {c : Prop} [Decidable c] {o o' p p' : Out} (ho : SameEnd o o') (hp : SameEnd p p') :
    SameEnd (if c then o else p) (if c then o' else p') := by
  split
  · exact ho
  · exact hp

/-- Two types in one header are read alike; what follows may differ in the type. -/
theorem sameEnd_needType {a b : Byte} {u v : State} {k l : Byte → Out} (h : SameEnd (k a) (l b)) :
    SameEnd (need (some a) u k) (need (some b) v l) := h

theorem sameEnd_needHeader {r : HeaderReg} {a b : Byte} {u v : State} {k l : Header → Out}
    (h : ∀ x y, SameEnd (k x) (l y)) :
    SameEnd (needHeader { r with type := some a } u k) (needHeader { r with type := some b } v l) :=
  sameEnd_need fun _ => sameEnd_needType (sameEnd_need fun _ => sameEnd_need fun _ => h _ _)

/-- A command without `HDR_IN` in its column goes the same way beside any frame type (R24). -/
theorem exec_sameEnd_of_not_reads {i : Instr} (hreads : ReqReg.hdrIn ∉ readsOf i) (s : State) (a b : Byte) :
    SameEnd (exec i (s.withFrameType a)) (exec i (s.withFrameType b)) := by
  have hagree : ∀ r ∈ readsOf i, Request.agreeOn r (s.withFrameType a).req (s.withFrameType b).req = true := by
    intro r hr
    cases r with
    | hdrIn => exact absurd hr hreads
    | _ => simp [Request.agreeOn, State.withFrameType]
  have hbeside := commandsReadOnlyTheirColumn i (s.withFrameType a) (s.withFrameType b).req s.resp s.script s.seen hagree
  have hsame := sameEnd_mapOut (g := State.withHostSide (s.withFrameType b).req s.script s.seen) (fun _ => rfl)
    (exec i (s.withFrameType a))
  exact hbeside ▸ hsame

/-- Whatever a command reads of `HDR_IN`, the type decides no test, and a type is there to read (R72, R77). -/
theorem exec_sameEnd (i : Instr) (s : State) (a b : Byte) :
    SameEnd (exec i (s.withFrameType a)) (exec i (s.withFrameType b)) := by
  by_cases hreads : ReqReg.hdrIn ∈ readsOf i
  case neg => exact exec_sameEnd_of_not_reads hreads s a b
  cases i
  case hdrEnc =>
    exact sameEnd_need fun _ => sameEnd_ite rfl
      (sameEnd_needType (sameEnd_need fun _ => sameEnd_need fun _ => rfl))
  case settingsDec =>
    exact sameEnd_need fun _ => sameEnd_ite rfl (sameEnd_ite trivial (sameEnd_needHeader fun _ _ => rfl))
  case headersEnc =>
    exact sameEnd_need fun _ => sameEnd_ite rfl
      (sameEnd_need fun _ => sameEnd_need fun _ => sameEnd_need fun _ => sameEnd_need fun _ => rfl)
  case headersDec =>
    exact sameEnd_need fun _ => sameEnd_ite rfl (sameEnd_needHeader fun _ _ => sameEnd_need fun _ => rfl)
  case dataEnc =>
    exact sameEnd_need fun _ => sameEnd_ite rfl
      (sameEnd_need fun _ => sameEnd_need fun _ => sameEnd_need fun _ => rfl)
  case dataDec =>
    exact sameEnd_need fun _ => sameEnd_ite rfl (sameEnd_needHeader fun _ _ => sameEnd_need fun _ => rfl)
  all_goals simp [readsOf] at hreads

/-- Settles O14: with two frame types a command ends alike. -/
theorem frameTypeIsNeverRefused : Obligations.FrameTypeIsNeverRefused := by
  intro i s a b
  have hsame := exec_sameEnd i s a b
  exact ⟨fun t ht => hsame.next ht, fun f hf => hsame.fault hf, fun r hr => hsame.refused hr⟩

/-! ### An encoded frame (R71, R83) -/

/-- What a frame encoder puts in `HDR_OUT.LEN` is the payload's length as a 32-bit number (R130, R140, R150). -/
theorem exec_frameEnc_len {f : FrameKind} {s t : State} {len : Word} {p : Bytes} (h : exec (frameEnc f) s = .next t)
    (hlen : t.resp.hdrOut.len = some len) (hp : t.resp.bufOut = some p) : len = BitVec.ofNat 32 p.length := by
  cases f with
  | settings =>
    obtain ⟨l, -, q, -, -, ack, -, rfl⟩ := execSettingsEnc_next.mp h
    cases hp
    exact (Option.some.inj hlen).symm
  | headers =>
    obtain ⟨g, -, ⟨-, rfl⟩ | ⟨-, es, -, eh, -, q, -, sid, -, rfl⟩⟩ := execHeadersEnc_next.mp h
    · cases hp
    · cases hp
      exact (Option.some.inj hlen).symm
  | data =>
    obtain ⟨g, -, ⟨-, rfl⟩ | ⟨-, es, -, q, -, sid, -, rfl⟩⟩ := execDataEnc_next.mp h
    · cases hp
    · cases hp
      exact (Option.some.inj hlen).symm

/-- The invariant bounds `BUF_OUT`, and with it what a header can say of its length (R6, R51). -/
theorem State.inv_bufOut_lt {s : State} {b : Bytes} (hs : s.inv = true) (hb : s.resp.bufOut = some b) : b.length < 2 ^ 32 := by
  obtain ⟨hcfg, -, hvalues, -⟩ := State.inv_iff.mp hs
  obtain ⟨-, hbuf, -, -⟩ := Response.valuesOk_iff.mp hvalues
  obtain ⟨-, hcap, -⟩ := cfgWf_iff.mp hcfg
  rw [hb, Option.all_some, Memory.wf_iff] at hbuf
  omega

/-- Settles O57: the command keeps the invariant, so the payload's length fits the 32 bits it is written to. -/
theorem encodedLengthIsThePayloads : Obligations.EncodedLengthIsThePayloads := by
  intro f s t len p hs h hlen hp
  rw [exec_frameEnc_len h hlen hp, BitVec.toNat_ofNat, Nat.mod_eq_of_lt (State.inv_bufOut_lt (exec_inv hs h) hp)]

/-! ### The header on the wire (R70, R113) -/

theorem encodeHeader_eq_wireHeader (h : Header) : encodeHeader h = wireHeader h := rfl

/-- The header read back from its 9 bytes is the one written, its reserved bit cleared. -/
theorem decodeHeader_wireHeader {h : Header} (hlen : h.len.toNat < 2 ^ 24) :
    decodeHeader (wireHeader h) = { h with sid := h.sid &&& 0x7FFFFFFF#32 } := by
  have hl : memRead (wireHeader h) 0 3 = h.len.toNat := (beValue_beBytes h.len.toNat 3).trans (Nat.mod_eq_of_lt hlen)
  have ht : memRead (wireHeader h) 3 1 = h.type.toNat := by simp [memRead, memBytes, wireHeader, beValue]
  have hf : memRead (wireHeader h) 4 1 = h.flags.toNat := by simp [memRead, memBytes, wireHeader, beValue]
  have hsid : memRead (wireHeader h) 5 4 = (h.sid &&& sidMask).toNat :=
    (beValue_beBytes (h.sid &&& sidMask).toNat 4).trans (Nat.mod_eq_of_lt (h.sid &&& sidMask).isLt)
  simp [decodeHeader, hl, ht, hf, hsid, sidMask, BitVec.and_assoc]

/-! ### Runs of host moves (R20, R92) -/

/-- A run begins with the host's next move: where that ends, the run ends as the rest of it does. -/
theorem exists_run_succ {s t : State} {m : HostMove} {rest : List HostMove} {k : Nat} {P : State → Prop}
    (hscript : s.script = m :: rest) (h : performMove m { s with script := rest } = .next t)
    (hrest : ∃ u, core.run k t = .next u ∧ P u) : ∃ u, core.run (k + 1) s = .next u ∧ P u := by
  have hstep : core.step s = .next t := (step_of_script hscript).trans h
  simpa only [Host.Core.run, hstep] using hrest

/-- A command issued among other moves ends as it does by itself (R24, R85). -/
theorem performMove_issue {i : Instr} {s t : State} (h : exec i s = .next t) (rest : List HostMove) :
    performMove (issue i) { s with script := rest } = .next ({ t with script := rest }.withCmd (encodeWord i)) := by
  obtain ⟨p, rfl⟩ := exec_next_frame h
  have hagree : ∀ r ∈ readsOf i, Request.agreeOn r s.req { s.req with cmd := some (encodeWord i) } = true := by
    intro r _
    cases r <;> simp [Request.agreeOn]
  have hbeside := commandsReadOnlyTheirColumn i s { s.req with cmd := some (encodeWord i) } s.resp rest s.seen hagree
  rw [h] at hbeside
  rw [issue, performMove, BitVec.ofNat_toNat, BitVec.setWidth_eq, issueCommand_of_decodeWord (decodeWord_encodeWord i)]
  exact hbeside

theorem exec_hdrEnc_of_header {s : State} {h : Header} (hin : s.req.hdrIn = HeaderReg.of h) (hlen : h.len.toNat < 2 ^ 24) :
    exec .hdrEnc s = .next (s.endsOk { bufOut := some (wireHeader h) }) :=
  execHdrEnc_next.mpr ⟨h.len, by simp [hin], .inr
    ⟨hlen, h.type, by simp [hin], h.flags, by simp [hin], h.sid, by simp [hin], by rw [encodeHeader_eq_wireHeader]⟩⟩

theorem exec_hdrDec_of_wireHeader {s : State} {h : Header} (hin : s.req.bufIn = some (wireHeader h))
    (hlen : h.len.toNat < 2 ^ 24) :
    exec .hdrDec s = .next (s.endsOk { hdrOut := HeaderReg.of { h with sid := h.sid &&& 0x7FFFFFFF#32 } }) :=
  execHdrDec_next.mpr ⟨wireHeader h, hin, .inr
    ⟨by rw [← encodeHeader_eq_wireHeader, encodeHeader_length], by rw [decodeHeader_wireHeader hlen]⟩⟩

/-- Settles O52: the encoder's payload is read, its header forwarded and encoded. -/
theorem sendPutsHeaderBeforePayload : Obligations.SendPutsHeaderBeforePayload := by
  intro f s t h p henc hhdr hbuf hlen
  have hread : readResp .bufOut t.resp = some (.bytes p) := by simp [readResp, hbuf]
  refine exists_run_succ rfl (performMove_issue henc _) ?_
  refine exists_run_succ rfl (hostRead_next.mpr ⟨_, hread, rfl⟩) ?_
  refine exists_run_succ rfl (forwardHeader_next.mpr ⟨h, hhdr, rfl⟩) ?_
  refine exists_run_succ rfl (performMove_issue (exec_hdrEnc_of_header rfl hlen) _) ?_
  exact ⟨_, rfl, rfl⟩

/-- Settles O53: the header's bytes are decoded and forwarded, and the length they hold delimits the payload. -/
theorem recvDecodesTheDelimitedPayload : Obligations.RecvDecodesTheDelimitedPayload := by
  intro f s h p rest hlen hp hhdr hpay
  have hheader : isSlice (wireHeader h ++ p ++ rest) 0 9 (wireHeader h) := ⟨[], p ++ rest, by simp, rfl, rfl⟩
  have hpayload : isSlice (wireHeader h ++ p ++ rest) 9 (9 + h.len.toNat) p := ⟨wireHeader h, rest, rfl, rfl, by rw [hp]⟩
  refine exists_run_succ rfl (performMove_bufIn (src := .slice _ 0 9) hheader hhdr) ?_
  refine exists_run_succ rfl (performMove_issue (exec_hdrDec_of_wireHeader rfl hlen) _) ?_
  refine exists_run_succ rfl (forwardHeader_next.mpr ⟨_, rfl, rfl⟩) ?_
  refine exists_run_succ rfl (performMove_bufIn ⟨h.len, rfl, hpayload⟩ hpay) ?_
  exact ⟨_, rfl, rfl, rfl, rfl⟩

end Sys2Proof.Machine
end

section
/-! The integer primitives: their values as bytes, the mask of the reserved bit, and the round trips (R100 to R105). -/

namespace Sys2Proof.Machine

/-! ### Fields of 3 and 4 bytes (R53, R54) -/

/-- Four bytes put together are their big-endian value (R53). -/
theorem beValue_four (b0 b1 b2 b3 : Byte) : beValue [b0, b1, b2, b3] = (b0 ++ b1 ++ b2 ++ b3).toNat := by
  have happend3 := toNat_append_eq (b0 ++ b1 ++ b2) b3
  have happend2 := toNat_append_eq (b0 ++ b1) b2
  have happend1 := toNat_append_eq b0 b1
  simp [beValue]
  omega

theorem ofNat_memRead_four (b0 b1 b2 b3 : Byte) (rest : Bytes) :
    BitVec.ofNat 32 (memRead (b0 :: b1 :: b2 :: b3 :: rest) 0 4) = b0 ++ b1 ++ b2 ++ b3 := by
  have hread : memRead (b0 :: b1 :: b2 :: b3 :: rest) 0 4 = beValue [b0, b1, b2, b3] := rfl
  rw [hread, beValue_four, BitVec.ofNat_toNat, BitVec.setWidth_eq]

/-- A byte 0 in front of three bytes is the zero extension to 32 bits (R100). -/
theorem ofNat_memRead_three (b0 b1 b2 : Byte) (rest : Bytes) :
    BitVec.ofNat 32 (memRead (b0 :: b1 :: b2 :: rest) 0 3) = 0#8 ++ b0 ++ b1 ++ b2 := by
  rw [← ofNat_memRead_four 0#8 b0 b1 b2 rest]
  simp [memRead, memBytes, beValue]

theorem memWrite_three (v : Word) (b0 b1 b2 : Byte) (rest : Bytes) :
    memWrite (b0 :: b1 :: b2 :: rest) 0 3 v.toNat =
      [v.extractLsb' 16 8, v.extractLsb' 8 8, v.extractLsb' 0 8] ++ rest := rfl

theorem memWrite_four (v : Word) (b0 b1 b2 b3 : Byte) (rest : Bytes) :
    memWrite (b0 :: b1 :: b2 :: b3 :: rest) 0 4 v.toNat = wireWord v ++ rest := rfl

/-- Clearing the reserved bit is the remainder by 2^31 (R104). -/
theorem toNat_and_sidMask (v : Word) : (v &&& sidMask).toNat = v.toNat % 2 ^ 31 := by
  rw [BitVec.toNat_and, show sidMask.toNat = 2 ^ 31 - 1 from rfl, Nat.and_two_pow_sub_one_eq_mod]

theorem and_sidMask_of_lt {v : Word} (h : v.toNat < 2 ^ 31) : v &&& sidMask = v :=
  BitVec.eq_of_toNat_eq ((toNat_and_sidMask v).trans (Nat.mod_eq_of_lt h))

/-- A field read back from where it was written is the value, if the field is wide enough for it. -/
theorem ofNat_memRead_memWrite {b : Bytes} {n : Nat} {v : Word} (hlen : n ≤ b.length) (hfit : v.toNat < 256 ^ n) :
    BitVec.ofNat 32 (memRead (memWrite b 0 n v.toNat) 0 n) = v := by
  rw [memRead_memWrite (by omega), Nat.mod_eq_of_lt hfit, BitVec.ofNat_toNat, BitVec.setWidth_eq]

/-! ### The caller contracts (R173) -/

theorem need_of_eq_some {α : Type} {r : Option α} {v : α} (hr : r = some v) (s : State) (k : α → Out) :
    need r s k = k v := by
  rw [hr, need_some]

/-- A buffer shorter than the field it should hold faults in the state the command started in, its responses `⊥`. -/
theorem need_of_short {r : Option Bytes} {b : Bytes} {n : Nat} {w : Contract} {s : State} {k : Bytes → Out}
    (hb : r = some b) (hshort : b.length < n) :
    need r s.beginCommand (fun b => if b.length < n then takeFault (.precondition w) s.beginCommand else k b) =
      .fault (.precondition w { s with resp := {}, faulted := true }) :=
  (need_of_eq_some hb _ _).trans (if_pos hshort)

theorem exec_writeU24_of_wide {s : State} {b : Bytes} {v : Word} (hb : s.req.bufIn = some b) (hlen : 3 ≤ b.length)
    (hv : s.req.valIn = some v) (hwide : 2 ^ 24 ≤ v.toNat) :
    exec .writeU24 s = .fault (.precondition .writeU24Wide { s with resp := {}, faulted := true }) :=
  calc exec .writeU24 s
    _ = if b.length < 3 then _ else _ := need_of_eq_some hb _ _
    _ = need s.req.valIn s.beginCommand _ := if_neg (Nat.not_lt.mpr hlen)
    _ = if 2 ^ 24 ≤ v.toNat then _ else _ := need_of_eq_some hv _ _
    _ = .fault (.precondition .writeU24Wide { s with resp := {}, faulted := true }) := if_pos hwide

/-! ### What each primitive does -/

theorem exec_readU24_of_bufIn {s : State} {b : Bytes} (hb : s.req.bufIn = some b) (hlen : 3 ≤ b.length) :
    exec .readU24 s = .next (s.endsOk { valOut := some (BitVec.ofNat 32 (memRead b 0 3)) }) :=
  execReadU24_next.mpr ⟨b, hb, hlen, rfl⟩

theorem exec_readU31_of_bufIn {s : State} {b : Bytes} (hb : s.req.bufIn = some b) (hlen : 4 ≤ b.length) :
    exec .readU31 s = .next (s.endsOk { valOut := some (BitVec.ofNat 32 (memRead b 0 4) &&& sidMask) }) :=
  execReadU31_next.mpr ⟨b, hb, hlen, rfl⟩

/-- Settles O5: a short buffer faults, and three bytes are read as four with a 0 in front. -/
theorem readU24ReadsThreeBytes : Obligations.ReadU24ReadsThreeBytes := by
  intro s b hb
  refine ⟨fun hshort => need_of_short hb hshort, ?_⟩
  rintro b0 b1 b2 rest rfl
  rw [exec_readU24_of_bufIn hb (by simp), ofNat_memRead_three]
  rfl

/-- Settles O6: the length is tested, then the value, then the three bytes written. -/
theorem writeU24ReplacesThreeBytes : Obligations.WriteU24ReplacesThreeBytes := by
  intro s b hb
  refine ⟨fun hshort => need_of_short hb hshort, fun v => exec_writeU24_of_wide hb, ?_⟩
  rintro v b0 b1 b2 rest rfl hv hfit
  exact execWriteU24_next.mpr ⟨_, hb, by simp, v, hv, hfit, by rw [memWrite_three]; rfl⟩

/-- Settles O7: a short buffer faults, and four bytes are read with the top bit masked. -/
theorem readU31ClearsTheTopBit : Obligations.ReadU31ClearsTheTopBit := by
  intro s b hb
  refine ⟨fun hshort => need_of_short hb hshort, ?_⟩
  rintro b0 b1 b2 b3 rest rfl
  rw [exec_readU31_of_bufIn hb (by simp), ofNat_memRead_four]
  rfl

/-- Settles O8: a short buffer faults, and any value is written with its top bit masked. -/
theorem writeU31ClearsTheTopBit : Obligations.WriteU31ClearsTheTopBit := by
  intro s b hb
  refine ⟨fun hshort => need_of_short hb hshort, ?_⟩
  rintro v b0 b1 b2 b3 rest rfl hv
  exact execWriteU31_next.mpr ⟨_, hb, by simp, v, hv, by rw [memWrite_four]; rfl⟩

/-! ### Ranges and round trips (R104, R105) -/

/-- What `READ_U24` returns is a number of three bytes. -/
theorem exec_readU24_valOut_lt {s t : State} {v : Word} (h : exec .readU24 s = .next t) (hv : t.resp.valOut = some v) :
    v.toNat < 2 ^ 24 := by
  obtain ⟨b, -, -, rfl⟩ := execReadU24_next.mp h
  cases hv
  rw [BitVec.toNat_ofNat]
  exact (Nat.mod_le _ _).trans_lt (memRead_lt b 0 3)

/-- What `READ_U31` returns is the number of the four bytes modulo 2^31. -/
theorem exec_readU31_valOut {s t : State} {v : Word} (h : exec .readU31 s = .next t) (hv : t.resp.valOut = some v) :
    ∃ b, s.req.bufIn = some b ∧ v.toNat = memRead b 0 4 % 2 ^ 31 := by
  obtain ⟨b, hb, -, rfl⟩ := execReadU31_next.mp h
  cases hv
  refine ⟨b, hb, ?_⟩
  rw [toNat_and_sidMask, BitVec.toNat_ofNat, Nat.mod_mod_of_dvd _ (by decide)]

/-- What `WRITE_U31` leaves in the first four bytes is the value modulo 2^31. -/
theorem exec_writeU31_bufOut {s t : State} {b : Bytes} (h : exec .writeU31 s = .next t) (hb : t.resp.bufOut = some b) :
    ∃ v, s.req.valIn = some v ∧ memRead b 0 4 = v.toNat % 2 ^ 31 := by
  obtain ⟨c, -, hlen, v, hv, rfl⟩ := execWriteU31_next.mp h
  cases hb
  refine ⟨v, hv, ?_⟩
  rw [memRead_memWrite hlen, toNat_and_sidMask]
  omega

/-- Settles O9: three bytes are below 2^24, and the mask is the remainder by 2^31. -/
theorem primitiveValuesStayInRange : Obligations.PrimitiveValuesStayInRange := by
  refine ⟨fun s t v h hv => exec_readU24_valOut_lt h hv, fun s t v h hv => ?_, fun s t b v hb h hv => ?_,
    fun s t b v hv h hb => ?_⟩
  · obtain ⟨b, -, hmod⟩ := exec_readU31_valOut h hv
    exact hmod ▸ Nat.mod_lt _ (by decide)
  · obtain ⟨c, hc, hmod⟩ := exec_readU31_valOut h hv
    cases hb.symm.trans hc
    exact hmod
  · obtain ⟨w, hw, hmod⟩ := exec_writeU31_bufOut h hb
    cases hv.symm.trans hw
    exact hmod

/-- A written buffer is as long as it was, so what could be written can be read (R101, R103). -/
theorem le_memWrite_length {b : Bytes} {n v : Nat} (hlen : n ≤ b.length) : n ≤ (memWrite b 0 n v).length := by
  rwa [memWrite_length (by omega)]

/-- Settles O10: the written field is long enough to read, and holds the value. -/
theorem integerRoundTrips : Obligations.IntegerRoundTrips := by
  refine ⟨fun s b v hb hlen hv hfit => ?_, fun s b v hb hlen hv => ?_⟩
  · exact ⟨_, _, execWriteU24_next.mpr ⟨b, hb, hlen, v, hv, hfit, rfl⟩,
      exec_readU24_of_bufIn rfl (le_memWrite_length hlen), congrArg some (ofNat_memRead_memWrite hlen hfit)⟩
  · have hval : BitVec.ofNat 32 (memRead (memWrite b 0 4 (v &&& sidMask).toNat) 0 4) &&& sidMask = v &&& sidMask := by
      rw [ofNat_memRead_memWrite hlen (v &&& sidMask).isLt, BitVec.and_assoc, BitVec.and_self]
    exact ⟨_, _, execWriteU31_next.mpr ⟨b, hb, hlen, v, hv, rfl⟩,
      exec_readU31_of_bufIn rfl (le_memWrite_length hlen), congrArg some hval,
      fun hfit => congrArg some (hval.trans (and_sidMask_of_lt hfit))⟩

end Sys2Proof.Machine
end

section
/-! The header codec: the 9 bytes of a header as they stand on the wire, and the round trip in both directions (R110 to R113). -/

namespace Sys2Proof.Machine

/-! ### The bytes of a field (R53, R74) -/

/-- A 32-bit field put together from four bytes is written as those bytes. -/
theorem wireWord_append (b0 b1 b2 b3 : Byte) : wireWord (b0 ++ b1 ++ b2 ++ b3) = [b0, b1, b2, b3] := by
  rw [← beBytes_toNat_eq_wireWord, ← beValue_four]
  exact beBytes_beValue [b0, b1, b2, b3]

/-- The reserved bit of a stream id is bit 7 of its first byte (R74). -/
theorem append_and_sidMask (b0 b1 b2 b3 : Byte) : (b0 ++ b1 ++ b2 ++ b3) &&& sidMask = (b0 &&& 0x7F#8) ++ b1 ++ b2 ++ b3 := by
  have hbytes : (b0 ++ b1 ++ b2 ++ b3) &&& (0x7F#8 ++ BitVec.allOnes 8 ++ BitVec.allOnes 8 ++ BitVec.allOnes 8) =
      (b0 &&& 0x7F#8) ++ b1 ++ b2 ++ b3 := by
    rw [BitVec.and_append, BitVec.and_append, BitVec.and_append, BitVec.and_allOnes, BitVec.and_allOnes, BitVec.and_allOnes]
  exact hbytes

theorem wireSid_append (b0 b1 b2 b3 : Byte) : wireSid (b0 ++ b1 ++ b2 ++ b3) = [b0 &&& 0x7F#8, b1, b2, b3] := by
  rw [← wireWord_append, ← append_and_sidMask]
  rfl

/-- Masking the reserved bit twice is masking it once. -/
theorem wireSid_and_sidMask (v : Word) : wireSid (v &&& sidMask) = wireSid v := by
  have hmask : v &&& sidMask &&& sidMask = v &&& sidMask := by rw [BitVec.and_assoc, BitVec.and_self]
  exact congrArg wireWord hmask

theorem and_0x7F_of_msb_eq_false {b : Byte} (h : b.msb = false) : b &&& 0x7F#8 = b := by
  have hlt : 2 * b.toNat < 2 ^ 8 := BitVec.msb_eq_false_iff_two_mul_lt.mp h
  apply BitVec.eq_of_toNat_eq
  rw [BitVec.toNat_and, show (0x7F#8).toNat = 2 ^ 7 - 1 from rfl, Nat.and_two_pow_sub_one_eq_mod]
  omega

/-- A byte 0 in front of three bytes leaves a length that fits its 24 bits (R70). -/
theorem toNat_zero_append_lt (b0 b1 b2 : Byte) : (0#8 ++ b0 ++ b1 ++ b2).toNat < 2 ^ 24 := by
  rw [← ofNat_memRead_three b0 b1 b2 [], BitVec.toNat_ofNat]
  exact (Nat.mod_le _ _).trans_lt (memRead_lt _ 0 3)

/-! ### A header's nine bytes (R70) -/

/-- The header that nine bytes spell. -/
def headerOfBytes (l0 l1 l2 t f i0 i1 i2 i3 : Byte) : Header where
  len := 0#8 ++ l0 ++ l1 ++ l2
  type := t
  flags := f
  sid := (i0 ++ i1 ++ i2 ++ i3) &&& sidMask

section
variable (l0 l1 l2 t f i0 i1 i2 i3 : Byte)

theorem decodeHeader_append (rest : Bytes) :
    decodeHeader ([l0, l1, l2, t, f, i0, i1, i2, i3] ++ rest) = headerOfBytes l0 l1 l2 t f i0 i1 i2 i3 := by
  rw [headerOfBytes, ← ofNat_memRead_three l0 l1 l2 rest, ← ofNat_memRead_four i0 i1 i2 i3 rest]
  simp [decodeHeader, memRead, memBytes, beValue]

/-- The nine bytes are written back, the reserved bit cleared (R113). -/
theorem wireHeader_headerOfBytes :
    wireHeader (headerOfBytes l0 l1 l2 t f i0 i1 i2 i3) = [l0, l1, l2, t, f, i0 &&& 0x7F#8, i1, i2, i3] :=
  calc wireHeader (headerOfBytes l0 l1 l2 t f i0 i1 i2 i3)
    _ = (wireWord (0#8 ++ l0 ++ l1 ++ l2)).tail ++ [t, f] ++ wireSid ((i0 ++ i1 ++ i2 ++ i3) &&& sidMask) := rfl
    _ = [l0, l1, l2, t, f, i0 &&& 0x7F#8, i1, i2, i3] := by
      rw [wireWord_append, wireSid_and_sidMask, wireSid_append]
      rfl

theorem exec_hdrDec_of_nine_bytes {s : State} {rest : Bytes}
    (hin : s.req.bufIn = some ([l0, l1, l2, t, f, i0, i1, i2, i3] ++ rest)) :
    exec .hdrDec s = .next (s.endsOk { hdrOut := HeaderReg.of (headerOfBytes l0 l1 l2 t f i0 i1 i2 i3) }) :=
  execHdrDec_next.mpr ⟨_, hin, .inr ⟨by simp, by rw [decodeHeader_append]⟩⟩

end

/-! ### The obligations -/

/-- Settles O11: the length alone decides, and the 9 bytes are the wire form of the header. -/
theorem hdrEncWritesNineBytes : Obligations.HdrEncWritesNineBytes := by
  refine fun s => ⟨fun len hlen hbig => ?_, fun h hin hfit => ⟨?_, ?_⟩⟩
  · exact execHdrEnc_next.mpr ⟨len, hlen, .inl ⟨hbig, rfl⟩⟩
  · exact exec_hdrEnc_of_header hin hfit
  · exact encodeHeader_length h

/-- Settles O12: a short buffer ends with SHORT_HEADER, and nine bytes spell the header whatever follows. -/
theorem hdrDecReadsNineBytes : Obligations.HdrDecReadsNineBytes := by
  refine fun s b hb => ⟨fun hshort => ?_, fun l0 l1 l2 t f i0 i1 i2 i3 rest hbytes => ?_⟩
  · exact execHdrDec_next.mpr ⟨b, hb, .inl ⟨hshort, rfl⟩⟩
  · exact exec_hdrDec_of_nine_bytes l0 l1 l2 t f i0 i1 i2 i3 (hb.trans (congrArg some hbytes))

/-- Settles O13: the header is read back from its wire form, and nine bytes are written back from the header they spell. -/
theorem headerRoundTrips : Obligations.HeaderRoundTrips := by
  refine ⟨fun s h hin hlen => ?_, fun s b0 b1 b2 b3 b4 b5 b6 b7 b8 hin => ?_⟩
  · refine ⟨_, _, exec_hdrEnc_of_header hin hlen, rfl, exec_hdrDec_of_wireHeader rfl hlen, rfl, rfl, fun hsid => ?_⟩
    exact congrArg (fun sid => HeaderReg.of { h with sid := sid }) (and_sidMask_of_lt hsid)
  · have hout := congrArg some (wireHeader_headerOfBytes b0 b1 b2 b3 b4 b5 b6 b7 b8)
    refine ⟨_, _, exec_hdrDec_of_nine_bytes b0 b1 b2 b3 b4 b5 b6 b7 b8 (rest := []) hin,
      exec_hdrEnc_of_header rfl (toNat_zero_append_lt b0 b1 b2), hout, fun hmsb => ?_⟩
    rw [hin]
    rwa [and_0x7F_of_msb_eq_false hmsb] at hout

end Sys2Proof.Machine
end

section
/-! The setting codec: the 6 bytes of a record as they stand on the wire, each end of `SET_ENC` and `SET_DEC`, and the round trip
in both directions (R120 to R124). -/

namespace Sys2Proof.Machine

/-! ### A setting's value and its six bytes (R29, R75, R82) -/

theorem toNat_wireValue (k : Half) (v : Word) : (wireValue { kind := k, val := v }).toNat = settingValue k.toNat v.toNat := by
  have hfits : settingValue k.toNat v.toNat < 2 ^ 32 := by
    unfold settingValue
    split
    · split <;> decide
    · exact v.isLt
  rw [wireValue_eq, BitVec.toNat_ofNat, Nat.mod_eq_of_lt hfits]

theorem wireValue_enablePush (v : Word) : wireValue { kind := 2#16, val := v } = if v = 0#32 then 0#32 else 1#32 := if_pos rfl

theorem wireValue_of_ne_enablePush {k : Half} (h : k ≠ 2#16) (v : Word) : wireValue { kind := k, val := v } = v := if_neg h

/-- A value that has been restricted once is not changed by restricting it again. -/
theorem wireValue_wireValue (k : Half) (v : Word) :
    wireValue { kind := k, val := wireValue { kind := k, val := v } } = wireValue { kind := k, val := v } := by
  by_cases hk : k = 2#16
  · subst hk
    by_cases hv : v = 0#32 <;> simp [wireValue_enablePush, hv]
  · rw [wireValue_of_ne_enablePush hk]

/-- The record that `SET_ENC` appends is the setting's wire form (R120). -/
theorem memAppend_memAppend_eq_wireSetting (b : Bytes) (k : Half) (v : Word) :
    memAppend (memAppend b k.toNat 2) (settingValue k.toNat v.toNat) 4 = b ++ wireSetting { kind := k, val := v } := by
  rw [← toNat_wireValue, memAppend, memAppend, beBytes_toNat_eq_wireWord, List.append_assoc]
  rfl

/-- The setting read from the 6 bytes of an identifier 1 to 6 and a value (R122). -/
theorem decodeRecord_wire {k : Half} (hlo : 1 ≤ k.toNat) (hhi : k.toNat ≤ 6) (v : Word) :
    decodeRecord (wireHalf k ++ wireWord v) 0 = some { kind := k, val := wireValue { kind := k, val := v } } := by
  have hkind : memRead (wireHalf k ++ wireWord v) 0 2 = k.toNat :=
    (beValue_beBytes k.toNat 2).trans (Nat.mod_eq_of_lt k.isLt)
  have hval : memRead (wireHalf k ++ wireWord v) (0 + 2) 4 = v.toNat :=
    (beValue_beBytes v.toNat 4).trans (Nat.mod_eq_of_lt v.isLt)
  have hknown : knownSetting k.toNat = true := by simp [knownSetting, hlo, hhi]
  simp [decodeRecord, hkind, hval, hknown, wireValue_eq]

/-! ### How `SET_ENC` and `SET_DEC` end (R120, R122, R174, R176) -/

theorem exec_setEnc_of_illegal {s : State} {k : Half} (hk : s.req.kindIn = some k) (hhi : 6 < k.toNat) :
    exec .setEnc s = .fault (.illegalOperand { s with resp := {}, faulted := true }) :=
  calc exec .setEnc s
    _ = if k.toNat = 0 then _ else _ := need_of_eq_some hk _ _
    _ = if 6 < k.toNat then _ else _ := if_neg (by omega)
    _ = .fault (.illegalOperand { s with resp := {}, faulted := true }) := if_pos hhi

section
variable {s : State} {k : Half} {v : Word} {b : Bytes} (hk : s.req.kindIn = some k) (hlo : 1 ≤ k.toNat) (hhi : k.toNat ≤ 6)
  (hv : s.req.valIn = some v) (hb : s.req.bufIn = some b)
include hk hlo hhi hv hb

theorem exec_setEnc_of_full (hfull : s.cfg.bufCapacity < b.length + 6) :
    exec .setEnc s = .refused (.capacity { s with resp := {}, refused := true }) :=
  calc exec .setEnc s
    _ = if k.toNat = 0 then _ else _ := need_of_eq_some hk _ _
    _ = if 6 < k.toNat then _ else _ := if_neg (by omega)
    _ = need s.req.valIn s.beginCommand _ := if_neg (Nat.not_lt.mpr hhi)
    _ = need s.req.bufIn s.beginCommand _ := need_of_eq_some hv _ _
    _ = if s.cfg.bufCapacity < b.length + 6 then _ else _ := need_of_eq_some hb _ _
    _ = .refused (.capacity { s with resp := {}, refused := true }) := if_pos hfull

theorem exec_setEnc_of_fits (hfits : b.length + 6 ≤ s.cfg.bufCapacity) :
    exec .setEnc s = .next (s.endsOk { bufOut := some (b ++ wireSetting { kind := k, val := v }) }) :=
  execSetEnc_next.mpr ⟨k, hk, .inr
    ⟨by omega, hhi, v, hv, b, hb, hfits, by rw [memAppend_memAppend_eq_wireSetting]⟩⟩

end

theorem exec_setDec_of_wire {s : State} {k : Half} {v : Word} (hb : s.req.bufIn = some (wireHalf k ++ wireWord v))
    (hlo : 1 ≤ k.toNat) (hhi : k.toNat ≤ 6) :
    exec .setDec s = .next (s.endsOk { kindOut := some k, valOut := some (wireValue { kind := k, val := v }) }) :=
  execSetDec_next.mpr ⟨_, hb, .inr ⟨Nat.le_refl 6, .inr ⟨_, decodeRecord_wire hlo hhi v, rfl⟩⟩⟩

/-- A buffer's capacity is at least 9 bytes, so an empty one has room for a record (R6). -/
theorem record_fits_in_empty {c : Config} (hc : c.wf = true) : ([] : Bytes).length + 6 ≤ c.bufCapacity := by
  obtain ⟨hcap, -⟩ := cfgWf_iff.mp hc
  exact Nat.le_trans (by decide) hcap

/-! ### The obligations -/

/-- Settles O15: the kind decides between nothing, a fault and a record, and the capacity whether the record is appended. -/
theorem setEncAppendsOneRecord : Obligations.SetEncAppendsOneRecord := by
  refine fun s k hk => ⟨fun b hzero hb => ?_, exec_setEnc_of_illegal hk, fun v b hlo hhi hv hb => ⟨?_, ?_⟩⟩
  · exact execSetEnc_next.mpr ⟨k, hk, .inl ⟨by rw [hzero]; rfl, b, hb, rfl⟩⟩
  · exact exec_setEnc_of_full hk hlo hhi hv hb
  · exact exec_setEnc_of_fits hk hlo hhi hv hb

/-- Settles O16: the length is tested, and the first record decodes as its 6 bytes say. -/
theorem setDecReadsOneRecord : Obligations.SetDecReadsOneRecord := by
  refine fun s b hb => ⟨fun hshort => ?_, fun hlen hnone => ?_, fun e hlen he => ?_⟩
  · exact execSetDec_next.mpr ⟨b, hb, .inl ⟨hshort, rfl⟩⟩
  · rw [settingOfWire_take hlen] at hnone
    exact execSetDec_next.mpr ⟨b, hb, .inr ⟨hlen, .inl ⟨hnone, rfl⟩⟩⟩
  · rw [settingOfWire_take hlen] at he
    exact execSetDec_next.mpr ⟨b, hb, .inr ⟨hlen, .inr ⟨e, he, rfl⟩⟩⟩

/-- Settles O17: each command restricts the value once, and the second time changes nothing. -/
theorem settingRoundTrips : Obligations.SettingRoundTrips := by
  refine ⟨fun s k v hc hb hk hv hlo hhi => ?_, fun s k v hc hb hlo hhi => ?_⟩
  · refine ⟨_, _, exec_setEnc_of_fits hk hlo hhi hv hb (record_fits_in_empty hc), exec_setDec_of_wire rfl hlo hhi, rfl, ?_, ?_⟩
    all_goals rw [State.endsOk_resp, wireValue_wireValue]
    · exact fun hpush => congrArg some (wireValue_of_ne_enablePush hpush v)
    · rintro rfl
      exact congrArg some (wireValue_enablePush v)
  · refine ⟨_, _, exec_setDec_of_wire hb hlo hhi, exec_setEnc_of_fits rfl hlo hhi rfl rfl (record_fits_in_empty hc), ?_, ?_⟩
    all_goals rw [State.endsOk_resp, wireSetting, wireValue_wireValue]
    · intro hsame
      have hval : wireValue { kind := k, val := v } = v := by
        rcases hsame with hpush | rfl
        · exact wireValue_of_ne_enablePush hpush v
        · simp [wireValue]
      rw [hval, hb]
      rfl
    · rintro rfl hv
      rw [wireValue_enablePush, if_neg hv]
      rfl

end Sys2Proof.Machine
end

section
/-! The SETTINGS frame codec: the payload as the wire records of its settings, each end of `SETTINGS_ENC` and `SETTINGS_DEC`, and
the round trip (R130 to R135). -/

namespace Sys2Proof.Machine

/-! ### The payload of a setting list (R75, R130) -/

@[simp] theorem wireSetting_length (e : Setting) : (wireSetting e).length = 6 := rfl

theorem settingRecord_eq_wireSetting (e : Setting) :
    settingRecord e.kind.toNat (settingValue e.kind.toNat e.val.toNat) = wireSetting e :=
  memAppend_memAppend_eq_wireSetting [] e.kind e.val

/-- The records of a setting list one after the other: the none sentinel has none (R130). -/
def settingsPayload (l : List Setting) : Bytes := (realSettings l).flatMap wireSetting

theorem settingsPayload_cons_of_none {e : Setting} (h : e.kind = 0#16) (es : List Setting) :
    settingsPayload (e :: es) = settingsPayload es := by
  simp [settingsPayload, realSettings, h]

theorem settingsPayload_cons_of_real {e : Setting} (h : e.kind ≠ 0#16) (es : List Setting) :
    settingsPayload (e :: es) = wireSetting e ++ settingsPayload es := by
  simp [settingsPayload, realSettings, h]

theorem settingsPayload_length (l : List Setting) : (settingsPayload l).length = 6 * (realSettings l).length := by
  simp [settingsPayload, List.length_flatMap, Nat.mul_comm]

/-- A list of legal kinds is encoded as the records of its entries (R130, R134). -/
theorem encodeSettings_of_legal {l : List Setting} (h : ∀ e ∈ l, e.kind.toNat ≤ 6) :
    encodeSettings l = some (settingsPayload l) := by
  induction l with
  | nil => rfl
  | cons e es ih =>
    obtain ⟨he, hes⟩ := List.forall_mem_cons.mp h
    have hzero : e.kind.toNat = 0 ↔ e.kind = 0#16 := BitVec.toNat_inj (y := 0#16)
    by_cases hk : e.kind = 0#16
    · rw [encodeSettings, if_pos (hzero.mpr hk), ih hes, settingsPayload_cons_of_none hk]
    · rw [encodeSettings, if_neg (mt hzero.mp hk), if_neg (Nat.not_lt.mpr he), ih hes, settingsPayload_cons_of_real hk,
        ← settingRecord_eq_wireSetting]

/-! ### The settings of a payload (R122, R132) -/

/-- A payload cut into records of 6 bytes decodes record by record. -/
theorem decodeSettings_flatten {rs : List Bytes} (h : ∀ r ∈ rs, r.length = 6) :
    decodeSettings rs.length rs.flatten = rs.filterMap settingOfWire := by
  induction rs with
  | nil => rfl
  | cons r rs ih =>
    obtain ⟨hr, hrs⟩ := List.forall_mem_cons.mp h
    have hfirst : decodeRecord (r ++ rs.flatten) 0 = settingOfWire r := by
      rw [← settingOfWire_take (by simp [hr]), List.take_left' hr]
    rw [List.length_cons, List.flatten_cons, decodeSettings, hfirst, List.drop_left' hr, ih hrs, List.filterMap_cons]
    cases settingOfWire r <;> rfl

theorem flatten_length_of_records {rs : List Bytes} (h : ∀ r ∈ rs, r.length = 6) : rs.flatten.length = 6 * rs.length := by
  rw [List.length_flatten, List.map_congr_left h, List.map_const', List.sum_replicate, smul_eq_mul, Nat.mul_comm]

/-- As many records are decoded as the payload's length says. -/
theorem decodeSettings_of_records {rs : List Bytes} (h : ∀ r ∈ rs, r.length = 6) :
    decodeSettings (rs.flatten.length / 6) rs.flatten = rs.filterMap settingOfWire := by
  rw [flatten_length_of_records h, Nat.mul_div_cancel_left _ (by decide), decodeSettings_flatten h]

/-- A setting as the unit writes it has a kind 1 to 6, and restricting its value changes nothing (R29). -/
theorem Setting.decoded_iff {e : Setting} :
    e.decoded = true ↔ 1 ≤ e.kind.toNat ∧ e.kind.toNat ≤ 6 ∧ wireValue e = e.val := by
  have hvalue : wireValue e = e.val ↔ e.kind ≠ 2#16 ∨ e.val = 0#32 ∨ e.val = 1#32 := by
    unfold wireValue
    split
    · next hpush => split <;> simp [*, eq_comm]
    · next hpush => simp [hpush]
  simp [Setting.decoded, knownSetting, hvalue, and_assoc, or_assoc]

/-- Such a setting is read back from its record (R124). -/
theorem settingOfWire_wireSetting {e : Setting} (h : e.decoded = true) : settingOfWire (wireSetting e) = some e := by
  obtain ⟨hlo, hhi, hval⟩ := Setting.decoded_iff.mp h
  calc settingOfWire (wireSetting e)
    _ = decodeRecord (wireSetting e) 0 := settingOfWire_take (b := wireSetting e) (Nat.le_refl 6)
    _ = some { kind := e.kind, val := wireValue { kind := e.kind, val := wireValue e } } := decodeRecord_wire hlo hhi (wireValue e)
    _ = some e := by rw [hval, hval]

theorem filterMap_settingOfWire_map_wireSetting {l : List Setting} (h : ∀ e ∈ l, e.decoded = true) :
    (l.map wireSetting).filterMap settingOfWire = l := by
  have hread : ∀ e ∈ l, (settingOfWire ∘ wireSetting) e = some e := fun e he => settingOfWire_wireSetting (h e he)
  rw [List.filterMap_map, List.filterMap_congr hread, List.filterMap_some]

/-- No entry of such a list is the none sentinel. -/
theorem realSettings_of_decoded {l : List Setting} (h : ∀ e ∈ l, e.decoded = true) : realSettings l = l := by
  refine List.filter_eq_self.mpr fun e he => decide_eq_true fun hzero => ?_
  obtain ⟨hlo, -⟩ := Setting.decoded_iff.mp (h e he)
  simp [hzero] at hlo

/-! ### How `SETTINGS_ENC` ends (R130, R174, R176) -/

section
variable {s : State} {l : List Setting} (hl : s.req.setIn = some l)
include hl

theorem exec_settingsEnc_of_illegal (h : ∃ e ∈ l, 6 < e.kind.toNat) :
    exec .settingsEnc s = .fault (.illegalOperand { s with resp := {}, faulted := true }) := by
  have hnone : encodeSettings l = none := encodeSettings_eq_none.mpr h
  rw [exec, execSettingsEnc, State.beginCommand_req, need_of_eq_some hl, hnone]
  rfl

variable (hlegal : ∀ e ∈ l, e.kind.toNat ≤ 6)
include hlegal

theorem exec_settingsEnc_of_full (hfull : s.cfg.bufCapacity < 6 * (realSettings l).length) :
    exec .settingsEnc s = .refused (.capacity { s with resp := {}, refused := true }) := by
  rw [← settingsPayload_length] at hfull
  rw [exec, execSettingsEnc, State.beginCommand_req, need_of_eq_some hl, encodeSettings_of_legal hlegal]
  exact if_pos hfull

theorem exec_settingsEnc_of_fits {a : Bool} (hfits : 6 * (realSettings l).length ≤ s.cfg.bufCapacity)
    (ha : s.req.ackIn = some a) :
    exec .settingsEnc s =
      .next (s.endsOk
        { hdrOut := HeaderReg.of
            { len := BitVec.ofNat 32 (6 * (realSettings l).length), type := typeSettings, flags := settingsFlags a, sid := 0#32 }
          bufOut := some (settingsPayload l) }) := by
  rw [← settingsPayload_length] at hfits ⊢
  exact execSettingsEnc_next.mpr ⟨l, hl, _, encodeSettings_of_legal hlegal, hfits, a, ha, rfl⟩

end

/-! ### How `SETTINGS_DEC` ends (R132, R176) -/

/-- The ack bit is bit 0 of the flags (R78). -/
theorem hasFlag_flagAck (f : Byte) : hasFlag f flagAck = f.getLsbD 0 := by
  have hone : f &&& flagAck = BitVec.setWidth 8 (BitVec.ofBool (f.getLsbD 0)) := BitVec.and_one_eq_setWidth_ofBool_getLsbD
  rw [hasFlag, hone]
  cases f.getLsbD 0 <;> rfl

theorem getLsbD_settingsFlags (a : Bool) : (settingsFlags a).getLsbD 0 = a := by
  cases a <;> decide

section
variable {s : State} {rs : List Bytes} (hb : s.req.bufIn = some rs.flatten) (hrs : ∀ r ∈ rs, r.length = 6)
include hb hrs

theorem exec_settingsDec_of_full (hfull : s.cfg.setCapacity < (rs.filterMap settingOfWire).length) :
    exec .settingsDec s = .refused (.capacity { s with resp := {}, refused := true }) := by
  rw [← decodeSettings_of_records hrs] at hfull
  rw [exec, execSettingsDec, State.beginCommand_req, need_of_eq_some hb, if_neg (by simp [flatten_length_of_records hrs])]
  exact if_pos hfull

theorem exec_settingsDec_of_fits {h : Header} (hfits : (rs.filterMap settingOfWire).length ≤ s.cfg.setCapacity)
    (hin : s.req.hdrIn = HeaderReg.of h) :
    exec .settingsDec s =
      .next (s.endsOk
        { hdrOut := HeaderReg.of h, ackOut := some (h.flags.getLsbD 0), setOut := some (rs.filterMap settingOfWire) }) := by
  rw [← decodeSettings_of_records hrs] at hfits ⊢
  rw [← hasFlag_flagAck]
  exact execSettingsDec_next.mpr ⟨_, hb, .inr ⟨by simp [flatten_length_of_records hrs], hfits, h, hin, rfl⟩⟩

end

/-! ### The obligations -/

/-- Settles O18: the payload of a list without illegal kinds is its records, and its length decides whether it is written. -/
theorem settingsEncWritesTheRecords : Obligations.SettingsEncWritesTheRecords :=
  fun _ _ hl => ⟨exec_settingsEnc_of_illegal hl, fun hlegal =>
    ⟨exec_settingsEnc_of_full hl hlegal, fun _ hfits ha => exec_settingsEnc_of_fits hl hlegal hfits ha⟩⟩

/-- Settles O19: the length is tested, and a payload of whole records decodes record by record. -/
theorem settingsDecReadsTheRecords : Obligations.SettingsDecReadsTheRecords := by
  refine fun s b hb => ⟨fun _ hshort => ?_, ?_⟩
  · exact execSettingsDec_next.mpr ⟨b, hb, .inl ⟨hshort, rfl⟩⟩
  · rintro rs rfl hrs
    exact ⟨exec_settingsDec_of_full hb hrs, fun h hfits hin => exec_settingsDec_of_fits hb hrs hfits hin⟩

/-- Settles O20: neither command asks more of an ack frame than of another, so each ends as it does for any list that fits. -/
theorem ackFramesWithSettingsPass : Obligations.AckFramesWithSettingsPass := by
  refine ⟨fun s l ha hl _ hlegal hfits => ?_, fun s h rs hin hack hb _ hrs hfits => ?_⟩
  · exact ⟨_, exec_settingsEnc_of_fits hl hlegal hfits ha, rfl, rfl, rfl⟩
  · exact ⟨_, exec_settingsDec_of_fits hb hrs hfits hin, rfl, congrArg some hack, rfl⟩

/-- Settles O21: every entry of a decoded list has a record, and every record reads back as its entry. -/
theorem settingsFrameRoundTrip : Obligations.SettingsFrameRoundTrip := by
  intro s a l ha hl hdecoded hbuf hset
  have hlegal : ∀ e ∈ l, e.kind.toNat ≤ 6 := fun e he => by
    obtain ⟨-, hhi, -⟩ := Setting.decoded_iff.mp (hdecoded e he)
    exact hhi
  have hreal : realSettings l = l := realSettings_of_decoded hdecoded
  have hpayload : settingsPayload l = (l.map wireSetting).flatten := by
    rw [settingsPayload, hreal, List.flatMap_def]
  have hrecords : ∀ r ∈ l.map wireSetting, r.length = 6 := List.forall_mem_map.mpr fun e _ => wireSetting_length e
  have hback : (l.map wireSetting).filterMap settingOfWire = l := filterMap_settingOfWire_map_wireSetting hdecoded
  refine ⟨_, _, exec_settingsEnc_of_fits hl hlegal (hreal.symm ▸ hbuf) ha,
    exec_settingsDec_of_fits (congrArg some hpayload) hrecords (hback.symm ▸ hset) rfl, congrArg some hback,
    congrArg some (getLsbD_settingsFlags a)⟩

end Sys2Proof.Machine
end

section
/-! The HEADERS frame codec: which flag bits it refuses, sets and reports, each end of `HEADERS_ENC` and `HEADERS_DEC`, and the
round trip (R140 to R145). -/

namespace Sys2Proof.Machine

/-! ### Flags bit by bit (R32, R78) -/

/-- A flag of one bit is had where that bit is set. -/
theorem hasFlag_twoPow (f : Byte) {i : Nat} (hi : i < 8) : hasFlag f (BitVec.twoPow 8 i) = f.getLsbD i := by
  have hne : BitVec.twoPow 8 i ≠ 0#8 := fun h => by simpa [hi] using congrArg (BitVec.getLsbD · i) h
  rw [hasFlag, BitVec.and_twoPow]
  cases f.getLsbD i <;> simp [hne]

/-- Of two flags together, one has to be had. -/
theorem hasFlag_or (f bit bit' : Byte) : hasFlag f (bit ||| bit') = (hasFlag f bit || hasFlag f bit') := by
  simp only [hasFlag, BitVec.and_or_distrib_left, ne_eq, BitVec.or_eq_zero_iff, not_and_or, Bool.decide_or]

theorem getLsbD_flagIf (b : Bool) (bit : Byte) (i : Nat) : (flagIf b bit).getLsbD i = (b && bit.getLsbD i) := by
  cases b <;> simp [flagIf]

/-! ### The flags of a HEADERS frame (R141, R142) -/

/-- The bits HEADERS refuses are `padded`, bit 3, and `priority`, bit 5. -/
theorem headersUnsupported_eq (f : Byte) : headersUnsupported f = (f.getLsbD 3 || f.getLsbD 5) :=
  calc headersUnsupported f
    _ = (hasFlag f (BitVec.twoPow 8 3) || hasFlag f (BitVec.twoPow 8 5)) := hasFlag_or f flagPadded flagPriority
    _ = (f.getLsbD 3 || f.getLsbD 5) := by rw [hasFlag_twoPow f (by decide), hasFlag_twoPow f (by decide)]

theorem headersUnsupported_of_and_eq_zero {f : Byte} (h : f &&& 0x28#8 = 0#8) : headersUnsupported f = false :=
  decide_eq_false (not_not.mpr h)

theorem hasFlag_flagEndStream (f : Byte) : hasFlag f flagEndStream = f.getLsbD 0 := hasFlag_flagAck f

theorem hasFlag_flagEndHeaders (f : Byte) : hasFlag f flagEndHeaders = f.getLsbD 2 :=
  hasFlag_twoPow f (i := 2) (by decide)

theorem getLsbD_headersFlags (f : Byte) (es eh : Bool) (i : Nat) :
    (headersFlags f es eh).getLsbD i =
      (f.getLsbD i || (es && flagEndStream.getLsbD i) || (eh && flagEndHeaders.getLsbD i)) := by
  rw [headersFlags, BitVec.getLsbD_or, BitVec.getLsbD_or, getLsbD_flagIf, getLsbD_flagIf]

theorem getLsbD_headersFlags_endStream (f : Byte) (es eh : Bool) :
    (headersFlags f es eh).getLsbD 0 = (es || f.getLsbD 0) :=
  calc (headersFlags f es eh).getLsbD 0
    _ = (f.getLsbD 0 || (es && true) || (eh && false)) := getLsbD_headersFlags f es eh 0
    _ = (es || f.getLsbD 0) := by rw [Bool.and_true, Bool.and_false, Bool.or_false, Bool.or_comm]

theorem getLsbD_headersFlags_endHeaders (f : Byte) (es eh : Bool) :
    (headersFlags f es eh).getLsbD 2 = (eh || f.getLsbD 2) :=
  calc (headersFlags f es eh).getLsbD 2
    _ = (f.getLsbD 2 || (es && false) || (eh && true)) := getLsbD_headersFlags f es eh 2
    _ = (eh || f.getLsbD 2) := by rw [Bool.and_false, Bool.and_true, Bool.or_false, Bool.or_comm]

/-- The encoder sets no bit that the decoder refuses. -/
theorem headersUnsupported_headersFlags (f : Byte) (es eh : Bool) :
    headersUnsupported (headersFlags f es eh) = headersUnsupported f := by
  have hkeep : ∀ i, flagEndStream.getLsbD i = false → flagEndHeaders.getLsbD i = false →
      (headersFlags f es eh).getLsbD i = f.getLsbD i := by
    intro i hstream hheaders
    simp only [getLsbD_headersFlags, hstream, hheaders, Bool.and_false, Bool.or_false]
  rw [headersUnsupported_eq, headersUnsupported_eq, hkeep 3 rfl rfl, hkeep 5 rfl rfl]

/-! ### How `HEADERS_ENC` and `HEADERS_DEC` end (R140, R143) -/

section
variable {s : State} {f : Byte} {b : Bytes}

theorem exec_headersEnc_of_unsupported (hf : s.req.hdrIn.flags = some f) (hbad : headersUnsupported f = true) :
    exec .headersEnc s = .next (s.endsWith .notImplemented) :=
  execHeadersEnc_next.mpr ⟨f, hf, .inl ⟨hbad, rfl⟩⟩

theorem exec_headersEnc_of_supported {es eh : Bool} {sid : Word} (hf : s.req.hdrIn.flags = some f)
    (hgood : headersUnsupported f = false) (hes : s.req.esIn = some es) (heh : s.req.ehIn = some eh)
    (hb : s.req.bufIn = some b) (hsid : s.req.hdrIn.sid = some sid) :
    exec .headersEnc s =
      .next (s.endsOk
        { hdrOut := HeaderReg.of
            { len := BitVec.ofNat 32 b.length, type := typeHeaders, flags := headersFlags f es eh, sid := sid }
          bufOut := some b }) :=
  execHeadersEnc_next.mpr ⟨f, hf, .inr ⟨hgood, es, hes, eh, heh, b, hb, sid, hsid, rfl⟩⟩

theorem exec_headersDec_of_unsupported (hf : s.req.hdrIn.flags = some f) (hbad : headersUnsupported f = true) :
    exec .headersDec s = .next (s.endsWith .notImplemented) :=
  execHeadersDec_next.mpr ⟨f, hf, .inl ⟨hbad, rfl⟩⟩

theorem exec_headersDec_of_supported {h : Header} (hin : s.req.hdrIn = HeaderReg.of h)
    (hgood : headersUnsupported h.flags = false) (hb : s.req.bufIn = some b) :
    exec .headersDec s =
      .next (s.endsOk
        { hdrOut := HeaderReg.of h, esOut := some (h.flags.getLsbD 0), ehOut := some (h.flags.getLsbD 2), bufOut := some b }) := by
  rw [← hasFlag_flagEndStream, ← hasFlag_flagEndHeaders]
  exact execHeadersDec_next.mpr ⟨h.flags, by rw [hin, HeaderReg.of_flags], .inr ⟨hgood, h, hin, b, hb, rfl⟩⟩

end

/-! ### The obligations -/

/-- Settles O22: bits 3 and 5 are the ones refused, and every other operand is read on the path without them only. -/
theorem headersEncBuildsTheHeader : Obligations.HeadersEncBuildsTheHeader := by
  intro s f hf
  rw [← headersUnsupported_eq]
  exact ⟨exec_headersEnc_of_unsupported hf, fun _ _ _ _ hgood hes heh hb hsid =>
    exec_headersEnc_of_supported hf hgood hes heh hb hsid⟩

/-- Settles O23: bits 3 and 5 are the ones refused, and the flags tested are those of the header passed on. -/
theorem headersDecSplitsTheFrame : Obligations.HeadersDecSplitsTheFrame := by
  intro s f hf
  rw [← headersUnsupported_eq]
  refine ⟨exec_headersDec_of_unsupported hf, fun h b hgood hin hb => ?_⟩
  obtain rfl : h.flags = f := by simpa [hin] using hf
  exact exec_headersDec_of_supported hin hgood hb

/-- Settles O24: the encoder's header is one the decoder takes, and its bits 0 and 2 are the booleans or the input's bits. -/
theorem headersFrameRoundTrip : Obligations.HeadersFrameRoundTrip := by
  intro s h es eh b hin hzero hes heh hb
  have hgood : headersUnsupported h.flags = false := headersUnsupported_of_and_eq_zero hzero
  have hback : headersUnsupported (headersFlags h.flags es eh) = false := by rw [headersUnsupported_headersFlags, hgood]
  have hflags : s.req.hdrIn.flags = some h.flags := by rw [hin, HeaderReg.of_flags]
  have hsid : s.req.hdrIn.sid = some h.sid := by rw [hin, HeaderReg.of_sid]
  exact ⟨_, _, exec_headersEnc_of_supported hflags hgood hes heh hb hsid, exec_headersDec_of_supported rfl hback rfl, rfl,
    congrArg some (getLsbD_headersFlags_endStream h.flags es eh), congrArg some (getLsbD_headersFlags_endHeaders h.flags es eh)⟩

end Sys2Proof.Machine
end

section
/-! The DATA frame codec: which flag bit it refuses, sets and reports, each end of `DATA_ENC` and `DATA_DEC`, and the round trip
(R150 to R153). -/

namespace Sys2Proof.Machine

/-! ### The flags of a DATA frame (R150, R151) -/

/-- The bit DATA refuses is `padded`, bit 3. -/
theorem dataUnsupported_eq (f : Byte) : dataUnsupported f = f.getLsbD 3 := hasFlag_twoPow f (i := 3) (by decide)

theorem dataUnsupported_of_and_eq_zero {f : Byte} (h : f &&& 0x08#8 = 0#8) : dataUnsupported f = false :=
  decide_eq_false (not_not.mpr h)

theorem getLsbD_dataFlags (f : Byte) (es : Bool) (i : Nat) :
    (dataFlags f es).getLsbD i = (f.getLsbD i || (es && flagEndStream.getLsbD i)) := by
  rw [dataFlags, BitVec.getLsbD_or, getLsbD_flagIf]

theorem getLsbD_dataFlags_endStream (f : Byte) (es : Bool) : (dataFlags f es).getLsbD 0 = (es || f.getLsbD 0) :=
  calc (dataFlags f es).getLsbD 0
    _ = (f.getLsbD 0 || (es && true)) := getLsbD_dataFlags f es 0
    _ = (es || f.getLsbD 0) := by rw [Bool.and_true, Bool.or_comm]

/-- The encoder does not set the bit that the decoder refuses. -/
theorem dataUnsupported_dataFlags (f : Byte) (es : Bool) : dataUnsupported (dataFlags f es) = dataUnsupported f :=
  calc dataUnsupported (dataFlags f es)
    _ = (dataFlags f es).getLsbD 3 := dataUnsupported_eq _
    _ = (f.getLsbD 3 || (es && false)) := getLsbD_dataFlags f es 3
    _ = dataUnsupported f := by rw [Bool.and_false, Bool.or_false, dataUnsupported_eq]

/-! ### How `DATA_ENC` and `DATA_DEC` end (R150, R152) -/

section
variable {s : State} {f : Byte} {b : Bytes}

theorem exec_dataEnc_of_unsupported (hf : s.req.hdrIn.flags = some f) (hbad : dataUnsupported f = true) :
    exec .dataEnc s = .next (s.endsWith .notImplemented) :=
  execDataEnc_next.mpr ⟨f, hf, .inl ⟨hbad, rfl⟩⟩

theorem exec_dataEnc_of_supported {es : Bool} {sid : Word} (hf : s.req.hdrIn.flags = some f)
    (hgood : dataUnsupported f = false) (hes : s.req.esIn = some es) (hb : s.req.bufIn = some b)
    (hsid : s.req.hdrIn.sid = some sid) :
    exec .dataEnc s =
      .next (s.endsOk
        { hdrOut := HeaderReg.of { len := BitVec.ofNat 32 b.length, type := typeData, flags := dataFlags f es, sid := sid }
          bufOut := some b }) :=
  execDataEnc_next.mpr ⟨f, hf, .inr ⟨hgood, es, hes, b, hb, sid, hsid, rfl⟩⟩

theorem exec_dataDec_of_unsupported (hf : s.req.hdrIn.flags = some f) (hbad : dataUnsupported f = true) :
    exec .dataDec s = .next (s.endsWith .notImplemented) :=
  execDataDec_next.mpr ⟨f, hf, .inl ⟨hbad, rfl⟩⟩

theorem exec_dataDec_of_supported {h : Header} (hin : s.req.hdrIn = HeaderReg.of h)
    (hgood : dataUnsupported h.flags = false) (hb : s.req.bufIn = some b) :
    exec .dataDec s =
      .next (s.endsOk { hdrOut := HeaderReg.of h, esOut := some (h.flags.getLsbD 0), bufOut := some b }) := by
  rw [← hasFlag_flagEndStream]
  exact execDataDec_next.mpr ⟨h.flags, by rw [hin, HeaderReg.of_flags], .inr ⟨hgood, h, hin, b, hb, rfl⟩⟩

end

/-! ### The obligations -/

/-- Settles O25: bit 3 is the one refused, and every other operand is read on the path without it only. -/
theorem dataEncBuildsTheHeader : Obligations.DataEncBuildsTheHeader := by
  intro s f hf
  rw [← dataUnsupported_eq]
  exact ⟨exec_dataEnc_of_unsupported hf, fun _ _ _ hgood hes hb hsid => exec_dataEnc_of_supported hf hgood hes hb hsid⟩

/-- Settles O26: bit 3 is the one refused, and the flags tested are those of the header passed on. -/
theorem dataDecSplitsTheFrame : Obligations.DataDecSplitsTheFrame := by
  intro s f hf
  rw [← dataUnsupported_eq]
  refine ⟨exec_dataDec_of_unsupported hf, fun h b hgood hin hb => ?_⟩
  obtain rfl : h.flags = f := by simpa [hin] using hf
  exact exec_dataDec_of_supported hin hgood hb

/-- Settles O27: the encoder's header is one the decoder takes, and its bit 0 is the boolean or the input's bit. -/
theorem dataFrameRoundTrip : Obligations.DataFrameRoundTrip := by
  intro s h es b hin hzero hes hb
  have hgood : dataUnsupported h.flags = false := dataUnsupported_of_and_eq_zero hzero
  have hback : dataUnsupported (dataFlags h.flags es) = false := by rw [dataUnsupported_dataFlags, hgood]
  have hflags : s.req.hdrIn.flags = some h.flags := by rw [hin, HeaderReg.of_flags]
  have hsid : s.req.hdrIn.sid = some h.sid := by rw [hin, HeaderReg.of_sid]
  exact ⟨_, _, exec_dataEnc_of_supported hflags hgood hes hb hsid, exec_dataDec_of_supported rfl hback rfl, rfl,
    congrArg some (getLsbD_dataFlags_endStream h.flags es)⟩

end Sys2Proof.Machine
end

section
/-! What a command or a step stops for, and what a stop leaves: the reads and tests that stop each command, the outcomes it can
end with, the marks, the invariant, and a step beside the other units (R163, R170 to R177, R184). -/

namespace Sys2Proof.Machine

/-! ### Why an outcome is a stop (R170 to R176) -/

/-- The reasons to stop, without the state a stop leaves. -/
inductive StopReason where
  | unwrittenRequest
  | illegalCommand
  | precondition
  | illegalOperand
  | refusal

/-- The reason a fault gives (R171 to R174). -/
@[simp] def Fault.reason : Fault → StopReason
  | .unwrittenRequest _ => .unwrittenRequest
  | .illegalCommand _ => .illegalCommand
  | .precondition _ _ => .precondition
  | .illegalOperand _ => .illegalOperand

/-- An outcome is a stop for the reason `c`. -/
def StopsFor (c : StopReason) : Out → Prop
  | .next _ => False
  | .fault f => c = f.reason
  | .refused _ => c = .refusal

theorem stopsFor_unwrittenRequest {o : Out} :
    StopsFor .unwrittenRequest o ↔ ∃ u, o = .fault (.unwrittenRequest u) := by
  rcases o with t | (u | u | ⟨w, u⟩ | u) | r <;> simp [StopsFor]

theorem stopsFor_precondition {o : Out} : StopsFor .precondition o ↔ ∃ w u, o = .fault (.precondition w u) := by
  rcases o with t | (u | u | ⟨w, u⟩ | u) | r <;> simp [StopsFor]

theorem stopsFor_illegalOperand {o : Out} : StopsFor .illegalOperand o ↔ ∃ u, o = .fault (.illegalOperand u) := by
  rcases o with t | (u | u | ⟨w, u⟩ | u) | r <;> simp [StopsFor]

theorem stopsFor_refusal {o : Out} : StopsFor .refusal o ↔ ∃ r, o = .refused r := by
  rcases o with t | (u | u | ⟨w, u⟩ | u) | r <;> simp [StopsFor]

section
variable {c : StopReason} {u : State}

@[simp] theorem stopsFor_finish {r : Response} : ¬ StopsFor c (finish u r) := id

@[simp] theorem stopsFor_raiseOutcome {x : CodecOutcome} : ¬ StopsFor c (raiseOutcome x u) := id

@[simp] theorem stopsFor_takeFault {g : State → Fault} :
    StopsFor c (takeFault g u) ↔ c = (g { u with faulted := true }).reason := Iff.rfl

@[simp] theorem stopsFor_takeRefusal {g : State → Refusal} : StopsFor c (takeRefusal g u) ↔ c = .refusal := Iff.rfl

@[simp] theorem stopsFor_ite {p : Prop} [Decidable p] {a b : Out} :
    StopsFor c (if p then a else b) ↔ p ∧ StopsFor c a ∨ ¬p ∧ StopsFor c b := by
  split <;> simp [*]

/-- A read stops the command where the register holds `⊥`, and otherwise what follows it may (R31, R177). -/
theorem stopsFor_need {α : Type} {r : Option α} {k : α → Out} :
    StopsFor c (need r u k) ↔ r = none ∧ c = .unwrittenRequest ∨ ∃ v, r = some v ∧ StopsFor c (k v) := by
  cases r <;> simp [StopsFor]

/-- Where a read is followed by nothing that stops, `⊥` alone stops it. -/
theorem stopsFor_need_last {α : Type} {r : Option α} {k : α → Out} (h : ∀ v, ¬ StopsFor c (k v)) :
    StopsFor c (need r u k) ↔ r = none ∧ c = .unwrittenRequest := by
  simp [stopsFor_need, h]

/-- Where a read is followed by reads alone, `⊥` in any of the registers stops the command. -/
theorem stopsFor_need_read {α : Type} {r : Option α} {k : α → Out} {p : Prop}
    (h : ∀ v, StopsFor c (k v) ↔ p ∧ c = .unwrittenRequest) :
    StopsFor c (need r u k) ↔ (r = none ∨ p) ∧ c = .unwrittenRequest := by
  rw [stopsFor_need]
  cases r <;> simp [h]

end

/-- A header register holds no header where one of its fields holds `⊥` (R24, R31). -/
theorem HeaderReg.value_eq_none {r : HeaderReg} :
    r.value = none ↔ r.len = none ∨ r.type = none ∨ r.flags = none ∨ r.sid = none := by
  obtain ⟨len, type, flags, sid⟩ := r
  cases len <;> cases type <;> cases flags <;> cases sid <;> simp [HeaderReg.value]

/-! ### What stops each command, in the order of its reads and tests (R100 to R152, R177) -/

section
variable {c : StopReason} {s : State}

@[simp] theorem exec_readU24_stopsFor :
    StopsFor c (exec .readU24 s) ↔
      s.req.bufIn = none ∧ c = .unwrittenRequest ∨ ∃ b, s.req.bufIn = some b ∧ b.length < 3 ∧ c = .precondition := by
  simp [exec, execReadU24, stopsFor_need]

@[simp] theorem exec_writeU24_stopsFor :
    StopsFor c (exec .writeU24 s) ↔
      s.req.bufIn = none ∧ c = .unwrittenRequest ∨ ∃ b, s.req.bufIn = some b ∧
        (b.length < 3 ∧ c = .precondition ∨
          3 ≤ b.length ∧ (s.req.valIn = none ∧ c = .unwrittenRequest ∨
            ∃ v, s.req.valIn = some v ∧ 2 ^ 24 ≤ v.toNat ∧ c = .precondition)) := by
  simp [exec, execWriteU24, stopsFor_need]

@[simp] theorem exec_readU31_stopsFor :
    StopsFor c (exec .readU31 s) ↔
      s.req.bufIn = none ∧ c = .unwrittenRequest ∨ ∃ b, s.req.bufIn = some b ∧ b.length < 4 ∧ c = .precondition := by
  simp [exec, execReadU31, stopsFor_need]

@[simp] theorem exec_writeU31_stopsFor :
    StopsFor c (exec .writeU31 s) ↔
      s.req.bufIn = none ∧ c = .unwrittenRequest ∨ ∃ b, s.req.bufIn = some b ∧
        (b.length < 4 ∧ c = .precondition ∨ 4 ≤ b.length ∧ s.req.valIn = none ∧ c = .unwrittenRequest) := by
  simp [exec, execWriteU31, stopsFor_need]

@[simp] theorem exec_hdrEnc_stopsFor :
    StopsFor c (exec .hdrEnc s) ↔
      s.req.hdrIn.len = none ∧ c = .unwrittenRequest ∨ ∃ len, s.req.hdrIn.len = some len ∧ len.toNat < 2 ^ 24 ∧
        s.req.hdrIn.value = none ∧ c = .unwrittenRequest := by
  have hreads {k : Byte → Byte → Word → Out} (hk : ∀ t f i, ¬ StopsFor c (k t f i)) :
      StopsFor c (need s.req.hdrIn.type s.beginCommand fun t => need s.req.hdrIn.flags s.beginCommand fun f =>
        need s.req.hdrIn.sid s.beginCommand fun i => k t f i) ↔
        (s.req.hdrIn.type = none ∨ s.req.hdrIn.flags = none ∨ s.req.hdrIn.sid = none) ∧ c = .unwrittenRequest :=
    stopsFor_need_read fun t => stopsFor_need_read fun f => stopsFor_need_last fun i => hk t f i
  rw [exec, execHdrEnc, stopsFor_need]
  refine or_congr_right (exists_congr fun len => and_congr_right fun hlen => ?_)
  have hlen' : s.req.hdrIn.len = some len := hlen
  simp [HeaderReg.value_eq_none, hlen', hreads]

@[simp] theorem exec_hdrDec_stopsFor : StopsFor c (exec .hdrDec s) ↔ s.req.bufIn = none ∧ c = .unwrittenRequest := by
  simp [exec, execHdrDec, stopsFor_need]

@[simp] theorem exec_setEnc_stopsFor :
    StopsFor c (exec .setEnc s) ↔
      s.req.kindIn = none ∧ c = .unwrittenRequest ∨ ∃ k, s.req.kindIn = some k ∧
        (k.toNat = 0 ∧ s.req.bufIn = none ∧ c = .unwrittenRequest ∨
          k.toNat ≠ 0 ∧ (6 < k.toNat ∧ c = .illegalOperand ∨
            k.toNat ≤ 6 ∧ (s.req.valIn = none ∧ c = .unwrittenRequest ∨ ∃ v, s.req.valIn = some v ∧
              (s.req.bufIn = none ∧ c = .unwrittenRequest ∨ ∃ b, s.req.bufIn = some b ∧
                s.cfg.bufCapacity < b.length + 6 ∧ c = .refusal)))) := by
  simp [exec, execSetEnc, stopsFor_need]

@[simp] theorem exec_setDec_stopsFor : StopsFor c (exec .setDec s) ↔ s.req.bufIn = none ∧ c = .unwrittenRequest := by
  refine stopsFor_need_last fun b => ?_
  cases decodeRecord b 0 <;> simp

@[simp] theorem exec_settingsEnc_stopsFor :
    StopsFor c (exec .settingsEnc s) ↔
      s.req.setIn = none ∧ c = .unwrittenRequest ∨ ∃ l, s.req.setIn = some l ∧
        ((∃ e ∈ l, 6 < e.kind.toNat) ∧ c = .illegalOperand ∨
          (∀ e ∈ l, e.kind.toNat ≤ 6) ∧ (s.cfg.bufCapacity < 6 * (realSettings l).length ∧ c = .refusal ∨
            6 * (realSettings l).length ≤ s.cfg.bufCapacity ∧ s.req.ackIn = none ∧ c = .unwrittenRequest)) := by
  rw [exec, execSettingsEnc, stopsFor_need]
  refine or_congr_right (exists_congr fun l => and_congr_right fun _ => ?_)
  by_cases hlegal : ∀ e ∈ l, e.kind.toNat ≤ 6
  · have hnone : ¬ ∃ e ∈ l, 6 < e.kind.toNat := by simpa using hlegal
    simp [encodeSettings_of_legal hlegal, settingsPayload_length, and_iff_right hlegal, hnone, stopsFor_need]
  · have hbad : ∃ e ∈ l, 6 < e.kind.toNat := by simpa using hlegal
    simp [encodeSettings_eq_none.mpr hbad, hlegal, hbad]

@[simp] theorem exec_settingsDec_stopsFor :
    StopsFor c (exec .settingsDec s) ↔
      s.req.bufIn = none ∧ c = .unwrittenRequest ∨ ∃ b, s.req.bufIn = some b ∧ b.length % 6 = 0 ∧
        (s.cfg.setCapacity < (decodeSettings (b.length / 6) b).length ∧ c = .refusal ∨
          (decodeSettings (b.length / 6) b).length ≤ s.cfg.setCapacity ∧
            s.req.hdrIn.value = none ∧ c = .unwrittenRequest) := by
  have hwhole : ∀ b : Bytes, ¬(b.length ≠ 0 ∧ b.length % 6 ≠ 0) ↔ b.length % 6 = 0 := fun b => by omega
  simp only [exec, execSettingsDec, needHeader_eq, stopsFor_need, stopsFor_ite, hwhole, State.beginCommand_req, stopsFor_finish,
    stopsFor_raiseOutcome, stopsFor_takeRefusal, and_false, false_or, or_false, exists_false, Nat.not_lt]

@[simp] theorem exec_headersEnc_stopsFor :
    StopsFor c (exec .headersEnc s) ↔
      s.req.hdrIn.flags = none ∧ c = .unwrittenRequest ∨ ∃ f, s.req.hdrIn.flags = some f ∧ headersUnsupported f = false ∧
        (s.req.esIn = none ∨ s.req.ehIn = none ∨ s.req.bufIn = none ∨ s.req.hdrIn.sid = none) ∧ c = .unwrittenRequest := by
  rw [exec, execHeadersEnc, stopsFor_need]
  simp only [stopsFor_ite, stopsFor_raiseOutcome, and_false, false_or, Bool.not_eq_true]
  exact or_congr_right (exists_congr fun f => and_congr_right fun _ => and_congr_right fun _ =>
    stopsFor_need_read fun _ => stopsFor_need_read fun _ => stopsFor_need_read fun _ => stopsFor_need_last fun _ => id)

@[simp] theorem exec_headersDec_stopsFor :
    StopsFor c (exec .headersDec s) ↔
      s.req.hdrIn.flags = none ∧ c = .unwrittenRequest ∨ ∃ f, s.req.hdrIn.flags = some f ∧ headersUnsupported f = false ∧
        (s.req.hdrIn.value = none ∨ s.req.bufIn = none) ∧ c = .unwrittenRequest := by
  rw [exec, execHeadersDec, stopsFor_need]
  simp only [stopsFor_ite, stopsFor_raiseOutcome, and_false, false_or, Bool.not_eq_true, needHeader_eq]
  exact or_congr_right (exists_congr fun f => and_congr_right fun _ => and_congr_right fun _ =>
    stopsFor_need_read fun _ => stopsFor_need_last fun _ => id)

@[simp] theorem exec_dataEnc_stopsFor :
    StopsFor c (exec .dataEnc s) ↔
      s.req.hdrIn.flags = none ∧ c = .unwrittenRequest ∨ ∃ f, s.req.hdrIn.flags = some f ∧ dataUnsupported f = false ∧
        (s.req.esIn = none ∨ s.req.bufIn = none ∨ s.req.hdrIn.sid = none) ∧ c = .unwrittenRequest := by
  rw [exec, execDataEnc, stopsFor_need]
  simp only [stopsFor_ite, stopsFor_raiseOutcome, and_false, false_or, Bool.not_eq_true]
  exact or_congr_right (exists_congr fun f => and_congr_right fun _ => and_congr_right fun _ =>
    stopsFor_need_read fun _ => stopsFor_need_read fun _ => stopsFor_need_last fun _ => id)

@[simp] theorem exec_dataDec_stopsFor :
    StopsFor c (exec .dataDec s) ↔
      s.req.hdrIn.flags = none ∧ c = .unwrittenRequest ∨ ∃ f, s.req.hdrIn.flags = some f ∧ dataUnsupported f = false ∧
        (s.req.hdrIn.value = none ∨ s.req.bufIn = none) ∧ c = .unwrittenRequest := by
  rw [exec, execDataDec, stopsFor_need]
  simp only [stopsFor_ite, stopsFor_raiseOutcome, and_false, false_or, Bool.not_eq_true, needHeader_eq]
  exact or_congr_right (exists_congr fun f => and_congr_right fun _ => and_congr_right fun _ =>
    stopsFor_need_read fun _ => stopsFor_need_last fun _ => id)

end

/-! ### The outcomes of a command (R163) -/

/-- A state in which every command is ready: no value is too wide, no flag is set, the kind and the setting list ask for no record,
and the buffer holds a known setting's record and one of identifier 0. -/
def State.readyForAll : State where
  cfg := { bufCapacity := 12, setCapacity := 2 }
  req :=
    { hdrIn := HeaderReg.of { len := 0#32, type := 0#8, flags := 0#8, sid := 0#32 }
      bufIn := some [0#8, 1#8, 0#8, 0#8, 0#8, 0#8, 0#8, 0#8, 0#8, 0#8, 0#8, 0#8]
      valIn := some 0#32
      kindIn := some 0#16
      ackIn := some false
      esIn := some false
      ehIn := some false
      setIn := some [] }
  resp := {}
  faulted := false
  refused := false
  script := []
  seen := []

theorem ready_readyForAll (i : Instr) : ready i State.readyForAll = true := by
  cases i <;> decide

/-- A state whose header has the padded flag and a length of 2^24, and whose buffer holds `b`. -/
def State.withBadHeader (b : Bytes) : State :=
  { State.readyForAll with
    req :=
      { hdrIn := HeaderReg.of { len := 0x1000000#32, type := 0#8, flags := 0x08#8, sid := 0#32 }
        bufIn := some b } }

section
variable {s : State} {b : Bytes}

theorem exec_hdrEnc_of_too_big {len : Word} (hlen : s.req.hdrIn.len = some len) (hbig : 2 ^ 24 ≤ len.toNat) :
    exec .hdrEnc s = .next (s.endsWith .frameTooBig) :=
  execHdrEnc_next.mpr ⟨len, hlen, .inl ⟨hbig, rfl⟩⟩

theorem exec_hdrDec_of_short (hb : s.req.bufIn = some b) (hshort : b.length < 9) :
    exec .hdrDec s = .next (s.endsWith .shortHeader) :=
  execHdrDec_next.mpr ⟨b, hb, .inl ⟨hshort, rfl⟩⟩

theorem exec_setDec_of_short (hb : s.req.bufIn = some b) (hshort : b.length < 6) :
    exec .setDec s = .next (s.endsWith .invalid) :=
  execSetDec_next.mpr ⟨b, hb, .inl ⟨hshort, rfl⟩⟩

theorem exec_setDec_of_unknown (hb : s.req.bufIn = some b) (hlen : 6 ≤ b.length) (hnone : decodeRecord b 0 = none) :
    exec .setDec s = .next (s.endsWith .unknown) :=
  execSetDec_next.mpr ⟨b, hb, .inr ⟨hlen, .inl ⟨hnone, rfl⟩⟩⟩

theorem exec_settingsDec_of_cut_short (hb : s.req.bufIn = some b) (hcut : b.length % 6 ≠ 0) :
    exec .settingsDec s = .next (s.endsWith .shortFrame) :=
  execSettingsDec_next.mpr ⟨b, hb, .inl ⟨hcut, rfl⟩⟩

end

/-- Every outcome but OK of a command's list is raised beside such a header: over an empty buffer, a buffer of one byte, or a record
of identifier 0. -/
theorem exists_exec_endsWith {i : Instr} {c : CodecOutcome} (hc : c ∈ outcomesOf i) (herror : c ≠ .ok) :
    ∃ s, exec i s = .next (s.endsWith c) := by
  cases i <;> simp only [outcomesOf, List.mem_cons, List.not_mem_nil, or_false, herror, false_or] at hc
  case setDec =>
    obtain rfl | rfl := hc
    · exact ⟨.withBadHeader [], exec_setDec_of_short rfl (by decide)⟩
    · have hnone : decodeRecord (List.replicate 6 0#8) 0 = none := by
        simp [decodeRecord, memRead, memBytes, beValue, knownSetting]
      exact ⟨.withBadHeader (List.replicate 6 0#8), exec_setDec_of_unknown rfl (by decide) hnone⟩
  all_goals subst hc
  case hdrEnc => exact ⟨.withBadHeader [], exec_hdrEnc_of_too_big rfl (by decide)⟩
  case hdrDec => exact ⟨.withBadHeader [], exec_hdrDec_of_short rfl (by decide)⟩
  case settingsDec => exact ⟨.withBadHeader [0#8], exec_settingsDec_of_cut_short rfl (by decide)⟩
  case headersEnc => exact ⟨.withBadHeader [], exec_headersEnc_of_unsupported rfl (by decide)⟩
  case headersDec => exact ⟨.withBadHeader [], exec_headersDec_of_unsupported rfl (by decide)⟩
  case dataEnc => exact ⟨.withBadHeader [], exec_dataEnc_of_unsupported rfl (by decide)⟩
  case dataDec => exact ⟨.withBadHeader [], exec_dataDec_of_unsupported rfl (by decide)⟩

/-- Settles O33: a command ends OK or with an error of its list; a ready state gives the one, a bad header or buffer the other. -/
theorem commandOutcomesAreTheListed : Obligations.CommandOutcomesAreTheListed := by
  refine ⟨fun i s t h => ?_, fun i c hc => ?_⟩
  · cases exec_next h with
    | ok _ _ => exact ⟨.ok, by cases i <;> decide, rfl⟩
    | @error c hlisted _ => exact ⟨c, hlisted, rfl⟩
  · by_cases hok : c = .ok
    · obtain ⟨r, hr⟩ := exec_of_ready (ready_readyForAll i)
      exact ⟨_, _, hr, by rw [hok]; rfl⟩
    · obtain ⟨s, hs⟩ := exists_exec_endsWith hc hok
      exact ⟨s, _, hs, rfl⟩

/-! ### What a stop of a command leaves (R33, R170, R175) -/

/-- ILLEGAL_COMMAND is no stop of a command: it belongs to the issue of the word (R172). -/
theorem exec_not_stopsFor_illegalCommand (i : Instr) (s : State) : ¬ StopsFor .illegalCommand (exec i s) := by
  cases i <;> simp

/-- Settles O35: the command's start clears the responses, and the fault sets the mark. -/
theorem faultsMarkAndClear : Obligations.FaultsMarkAndClear := by
  refine fun i s f h => ⟨exec_fault_after h, ?_⟩
  rintro u rfl
  exact exec_not_stopsFor_illegalCommand i s (h ▸ rfl)

/-- Settles O36: the command's start clears the responses, and the refusal sets the mark. -/
theorem refusalsMarkAndClear : Obligations.RefusalsMarkAndClear := fun _ _ _ h => exec_refused h

/-! ### When a command stops for each reason (R171, R173, R174, R176) -/

theorem option_all_eq_true_iff {α : Type} {r : Option α} {p : α → Bool} :
    r.all p = true ↔ r = none ∨ ∃ v, r = some v ∧ p v = true := by
  cases r <;> simp

theorem option_all_eq_false {α : Type} {r : Option α} {p : α → Bool} (hr : r.isSome = true) (hp : ∀ v, p v = false) :
    r.all p = false := by
  obtain ⟨v, rfl⟩ := Option.isSome_iff_exists.mp hr
  exact hp v

theorem none_or_some_and {α : Type} {r : Option α} {p : Prop} :
    r = none ∨ (∃ v, r = some v) ∧ p ↔ r = none ∨ p := by
  cases r <;> simp

/-- A command stops at a read of `⊥` exactly where the table of such reads says (R171, R177). -/
theorem exec_stopsFor_unwrittenRequest (i : Instr) (s : State) :
    StopsFor .unwrittenRequest (exec i s) ↔ readsBottom i s = true := by
  cases i with
  | setEnc =>
    have hzero : ∀ k : Half, k = 0#16 ↔ k.toNat = 0 := fun k => BitVec.toNat_inj.symm
    simp [readsBottom, option_all_eq_true_iff, none_or_some_and, hzero, ite_prop_iff_or]
  | settingsEnc => simp [readsBottom, option_all_eq_true_iff, Setting.wf, and_assoc]
  | _ => simp [readsBottom, option_all_eq_true_iff, and_assoc, or_assoc]

/-- Where every register of its column holds a value, a command reads no `⊥` (R24). -/
theorem readsBottom_eq_false {i : Instr} {s : State} (h : ∀ r ∈ readsOf i, s.req.bottom r = false) :
    readsBottom i s = false := by
  have hheader : s.req.hdrIn.value.isSome = true → ∃ x, s.req.hdrIn = HeaderReg.of x := fun hx =>
    (Option.isSome_iff_exists.mp hx).imp fun _ => HeaderReg.value_eq_some.mp
  cases i <;> simp only [readsOf, List.forall_mem_cons, List.not_mem_nil, IsEmpty.forall_iff, implies_true, and_true,
    Request.bottom, Option.isNone_eq_false_iff] at h
  case readU24 | readU31 | hdrDec | setDec => simpa [readsBottom] using h
  case writeU24 | writeU31 =>
    obtain ⟨hb, hv⟩ := h
    exact option_all_eq_false hb fun b => by simp [hv]
  case hdrEnc =>
    obtain ⟨x, hx⟩ := hheader h
    simp [readsBottom, hx]
  case setEnc =>
    obtain ⟨hb, hk, hv⟩ := h
    exact option_all_eq_false hk fun k => by simp [hb, hv]
  case settingsEnc =>
    obtain ⟨ha, hl⟩ := h
    exact option_all_eq_false hl fun l => by simp [ha]
  case settingsDec =>
    obtain ⟨hx, hb⟩ := h
    exact option_all_eq_false hb fun b => by simp [hx]
  case headersEnc =>
    obtain ⟨hx, hes, heh, hb⟩ := h
    obtain ⟨x, hx⟩ := hheader hx
    simp [readsBottom, hx, hes, heh, hb]
  case dataEnc =>
    obtain ⟨hx, hes, hb⟩ := h
    obtain ⟨x, hx⟩ := hheader hx
    simp [readsBottom, hx, hes, hb]
  case headersDec | dataDec =>
    obtain ⟨hx, hb⟩ := h
    obtain ⟨x, hx⟩ := hheader hx
    simp [readsBottom, hx, hb]

/-- Settles O37: the table of reads of `⊥` is the stops of every command, and speaks of the command's column alone. -/
theorem unwrittenRequestsFault : Obligations.UnwrittenRequestsFault := by
  refine ⟨fun i s => ?_, fun i s hbottom => ?_, fun s r rest hscript hr => ?_⟩
  · rw [← stopsFor_unwrittenRequest, exec_stopsFor_unwrittenRequest]
  · by_contra hnone
    have hcolumn : ∀ r ∈ readsOf i, s.req.bottom r = false := by simpa using hnone
    rw [readsBottom_eq_false hcolumn] at hbottom
    cases hbottom
  · obtain ⟨hstep, -⟩ := hostReadsOfBottomFault s r rest hscript
    exact ⟨_, hstep hr, rfl⟩

/-- Settles O39: of the stops of each command, the short buffers and wide values are the caller contracts. -/
theorem preconditionFaultsExactly : Obligations.PreconditionFaultsExactly := by
  intro i s
  rw [← stopsFor_precondition]
  cases i with
  | writeU24 => simp [and_or_left, exists_or]
  | _ => simp

/-- Settles O40: a kind of 7 or more is one that is not below 7. -/
theorem illegalOperandFaultsExactly : Obligations.IllegalOperandFaultsExactly := by
  intro i s
  rw [← stopsFor_illegalOperand]
  cases i with
  | setEnc =>
    have hkind : ∀ k : Half, k.toNat ≠ 0 ∧ 6 < k.toNat ↔ 7 ≤ k.toNat := fun k => by omega
    simp [← hkind]
  | settingsEnc =>
    have hkind : ∀ k : Half, 6 < k.toNat ↔ 7 ≤ k.toNat := fun _ => Nat.lt_iff_add_one_le
    simp [hkind]
  | _ => simp

/-- A payload whose length is a multiple of 6 is cut into records (R75, R132). -/
theorem exists_records {b : Bytes} (h : b.length % 6 = 0) : ∃ rs : List Bytes, b = rs.flatten ∧ ∀ r ∈ rs, r.length = 6 := by
  obtain ⟨n, hn⟩ := Nat.dvd_of_mod_eq_zero h
  clear h
  induction n generalizing b with
  | zero => exact ⟨[], List.length_eq_zero_iff.mp hn, by simp⟩
  | succ n ih =>
    obtain ⟨rs, hrest, hrs⟩ := ih (b := b.drop 6) (by simp; omega)
    refine ⟨b.take 6 :: rs, ?_, List.forall_mem_cons.mpr ⟨by simp; omega, hrs⟩⟩
    rw [List.flatten_cons, ← hrest, List.take_append_drop]

/-- A payload of whole records with too many settings in it, counted by its bytes or by its records (R132, R176). -/
theorem exists_payload_too_long_iff {r : Option Bytes} {cap : Nat} :
    (∃ b, r = some b ∧ b.length % 6 = 0 ∧ cap < (decodeSettings (b.length / 6) b).length) ↔
      ∃ rs : List Bytes, r = some rs.flatten ∧ (∀ r ∈ rs, r.length = 6) ∧ cap < (rs.filterMap settingOfWire).length := by
  constructor
  · rintro ⟨b, rfl, hwhole, hlong⟩
    obtain ⟨rs, rfl, hrs⟩ := exists_records hwhole
    exact ⟨rs, rfl, hrs, decodeSettings_of_records hrs ▸ hlong⟩
  · rintro ⟨rs, rfl, hrs, hlong⟩
    exact ⟨rs.flatten, rfl, by simp [flatten_length_of_records hrs], (decodeSettings_of_records hrs).symm ▸ hlong⟩

/-- Settles O41: of the stops of each command, the refusals are the results beyond a capacity. -/
theorem capacityRefusesExactly : Obligations.CapacityRefusesExactly := by
  intro i s
  rw [← stopsFor_refusal]
  cases i with
  | setEnc => simp [Nat.one_le_iff_ne_zero]
  | settingsDec => simp [exists_payload_too_long_iff]
  | _ => simp

/-- Settles O38: kind 0 goes the way on which the buffer is read alone. -/
theorem noneSentinelReadsNoValue : Obligations.NoneSentinelReadsNoValue :=
  fun _ b hk hb _ => execSetEnc_next.mpr ⟨0#16, hk, .inl ⟨rfl, b, hb, rfl⟩⟩

/-! ### The invariant where a command or a step stops -/

/-- The invariant asks nothing of the marks. -/
@[simp] theorem State.inv_withFaulted (s : State) (x : Bool) : { s with faulted := x }.inv = s.inv := rfl

@[simp] theorem State.inv_withRefused (s : State) (x : Bool) : { s with refused := x }.inv = s.inv := rfl

theorem State.inv_beginCommand {s : State} (hs : s.inv = true) : s.beginCommand.inv = true := by
  obtain ⟨hcfg, hreq, -, -⟩ := State.inv_iff.mp hs
  exact State.inv_iff.mpr ⟨hcfg, hreq, rfl, rfl⟩

theorem exec_fault_inv {i : Instr} {s : State} {f : Fault} (hs : s.inv = true) (h : exec i s = .fault f) :
    f.after.inv = true := by
  rw [exec_fault_after h, State.inv_withFaulted]
  exact State.inv_beginCommand hs

theorem exec_refused_inv {i : Instr} {s u : State} (hs : s.inv = true) (h : exec i s = .refused (.capacity u)) :
    u.inv = true := by
  obtain rfl := Refusal.capacity.inj (exec_refused h)
  rw [State.inv_withRefused]
  exact State.inv_beginCommand hs

/-- Every host move that faults leaves a state that meets the invariant: a command's, or its own with the mark set (R31, R170). -/
theorem performMove_fault_inv {m : HostMove} {s : State} {f : Fault} (hs : s.inv = true) (h : performMove m s = .fault f) :
    f.after.inv = true := by
  cases m with
  | cmd w =>
    obtain ⟨i, -, hi⟩ | ⟨-, rfl⟩ := issueCommand_fault.mp h
    · exact exec_fault_inv (by simpa using hs) hi
    · exact hs
  | wr x => rw [hostWrite_fault h]; exact hs
  | fwd => rw [forwardHeader_fault h]; exact hs
  | rd r => rw [hostRead_fault h]; exact hs
  | reset => cases h

/-- A host move refused for a capacity issued a command, and leaves what that command leaves (R175, R176). -/
theorem performMove_refused_inv {m : HostMove} {s u : State} (hs : s.inv = true)
    (h : performMove m s = .refused (.capacity u)) : u.inv = true := by
  cases m with
  | cmd w =>
    obtain ⟨i, -, hi⟩ := issueCommand_refused.mp h
    exact exec_refused_inv (by simpa using hs) hi
  | wr x => exact absurd h hostWrite_refused
  | fwd => exact absurd h forwardHeader_ne_refused
  | rd r => exact absurd h hostRead_ne_refused
  | reset => cases h

/-- Settles O56: a stop of a command clears the responses and sets a mark, and a step stops where its move does. -/
theorem stopsKeepTheInvariant : Obligations.StopsKeepTheInvariant := by
  refine fun s hs => ⟨fun i f h => exec_fault_inv hs h, fun i u h => exec_refused_inv hs h, fun f h => ?_, fun u h => ?_⟩
  · obtain ⟨m, rest, -, hm⟩ := step_fault.mp h
    exact performMove_fault_inv (by simpa using hs) hm
  · obtain ⟨m, rest, -, hm⟩ := step_refused.mp h
    exact performMove_refused_inv (by simpa using hs) hm

/-! ### Units beside each other (R60, R184) -/

/-- The step of a system is nothing, where there is no such unit, or a step of that unit, put in its place. -/
theorem System.step_next {k : Nat} {y z : System} :
    System.step k y = .next z ↔
      (y.units[k]? = none ∧ z = y) ∨
      ∃ s t, y.units[k]? = some s ∧ Machine.step s = .next t ∧ z = { units := y.units.set k t } := by
  unfold System.step
  cases y.units[k]? with
  | none => simp [eq_comm]
  | some s => cases hs : Machine.step s <;> simp [hs, eq_comm]

theorem System.step_next_length {k : Nat} {y z : System} (h : System.step k y = .next z) :
    z.units.length = y.units.length := by
  obtain ⟨-, rfl⟩ | ⟨s, t, -, -, rfl⟩ := System.step_next.mp h
  · rfl
  · exact List.length_set

theorem System.step_next_other {k j : Nat} {y z : System} (h : System.step k y = .next z) (hj : j ≠ k) :
    z.units[j]? = y.units[j]? := by
  obtain ⟨-, rfl⟩ | ⟨s, t, -, -, rfl⟩ := System.step_next.mp h
  · rfl
  · exact List.getElem?_set_ne hj.symm

/-- Steps of two units change two places of one list, in either order. -/
theorem System.step_next_comm {j k : Nat} {y z w : System} (hjk : j ≠ k) (hj : System.step j y = .next z)
    (hk : System.step k z = .next w) : ∃ x, System.step k y = .next x ∧ System.step j x = .next w := by
  have hsame : z.units[k]? = y.units[k]? := System.step_next_other hj hjk.symm
  obtain ⟨hnone, rfl⟩ | ⟨s, t, hs, hstep, rfl⟩ := System.step_next.mp hk
  · exact ⟨y, System.step_next.mpr (.inl ⟨hsame ▸ hnone, rfl⟩), hj⟩
  · refine ⟨_, System.step_next.mpr (.inr ⟨s, t, hsame ▸ hs, hstep, rfl⟩), System.step_next.mpr ?_⟩
    have hkeep : (y.units.set k t)[j]? = y.units[j]? := List.getElem?_set_ne hjk.symm
    obtain ⟨hnone, rfl⟩ | ⟨s', t', hs', hstep', rfl⟩ := System.step_next.mp hj
    · exact .inl ⟨hkeep ▸ hnone, rfl⟩
    · exact .inr ⟨s', t', hkeep ▸ hs', hstep', congrArg System.mk (List.set_comm t' t hjk)⟩

/-- Settles O58: a step of one unit is a change of its place alone. -/
theorem unitsDoNotInterfere : Obligations.UnitsDoNotInterfere :=
  ⟨fun _ _ _ h => ⟨System.step_next_length h, fun _ hj => System.step_next_other h hj⟩,
    fun _ _ _ _ _ hjk hj hk => System.step_next_comm hjk hj hk⟩

end Sys2Proof.Machine
end

section
/-! Reset, and that outputs never alias inputs: what a reset leaves (R190), and which side of the registers a host write and an
issued command change (R195). -/

namespace Sys2Proof.Machine

/-- Issuing a command that ends changes `CMD` and the response registers alone (R22, R85, R195). -/
theorem issueCommand_next_frame {w : Byte} {s t : State} (h : issueCommand w s = .next t) :
    ∃ p, t = { s.withCmd w with resp := p } := by
  obtain ⟨i, -, hi⟩ := issueCommand_next.mp h
  exact exec_next_frame hi

/-- Settles O47: a host write changes request registers alone, and an issued command changes of them `CMD` alone. -/
theorem outputsNeverAliasInputs : Obligations.OutputsNeverAliasInputs := by
  refine ⟨fun s t x rest hscript h => ?_, fun s t n rest hscript h => ?_⟩ <;> rw [step_of_script hscript] at h
  · obtain ⟨q, rfl⟩ := hostWrite_next h
    rfl
  · obtain ⟨p, rfl⟩ := issueCommand_next_frame h
    rfl

/-- Settles O43: the reset state holds no value, and the move `reset` leaves the registers and marks of `State.afterReset`. -/
theorem resetLeavesEveryRegisterBottom : Obligations.ResetLeavesEveryRegisterBottom :=
  ⟨⟨State.reset_req, State.reset_resp, rfl, rfl⟩, fun _ _ hscript =>
    ⟨_, step_of_script hscript, State.afterReset_req _, State.afterReset_resp _, State.afterReset_faulted _,
      State.afterReset_refused _⟩⟩

end Sys2Proof.Machine
end
